-- ==== Sys2Proof/Word.lean ====
section
/-! DEFINITION. The two bit widths of the block: bytes (inputs, outputs, table indices) and 64-bit
words (STATE, table entries, all arithmetic; rule R4, rule R7). -/

namespace Sys2Proof

/-- An 8-bit input, output or index byte (rule R4: BYTE = 8). -/
abbrev Byte := BitVec 8

/-- A 64-bit unsigned value: STATE, a table entry, every intermediate value (rule R4: W = 64). -/
abbrev Word := BitVec 64

end Sys2Proof
end

