-- ==== Sys2Proof/Config.lean ====
section
/-! DEFINITION. What is fixed for one block (rule R4, rule R5, rule R6) and the one free value of the
model: what a table entry holds before BUILD (rule R20). -/

namespace Sys2Proof.Config

/-- POLY, rule R5: the reversed CRC-64/ISO polynomial. PRESUMED (log entry 1): the source document
prints no digits; the spec supplies this value from general knowledge and makes it the only one
admitted. Unsafe if wrong: every table entry and checksum would differ. -/
def poly : Word := 0xD800000000000000

/-- How many accumulators there are beyond the first. Left open (rule R6, decision D7): a constant
with no body, so whatever is proved holds for every number. -/
opaque moreAccs : Nat

/-- N_ACC, rule R6 and rule R22: the number of accumulators, at least 1. -/
def nAcc : Nat := Nat.succ moreAccs

/-- NT, rule R4: the number of table rows. -/
def rows : Nat := 8

/-- NE, rule R4: the entries of one row, one per byte value. -/
def rowEntries : Nat := 256

/-- ROUNDS, rule R4: the bit rounds of one row-0 entry. -/
def bitRounds : Nat := 8

/-- SLICE, rule R4: the input bytes one bulk round consumes. -/
def sliceBytes : Nat := 8

/-- SIZE, rule R18 and rule R78: the bytes a SUM appends. -/
def size : Nat := 8

/-- BLOCKSIZE, rule R18 and rule R79. -/
def blockSize : Nat := 8

/-- FREE VALUE (log entry 2): what the table entry at a linear address (rule R26) reads as while no
BUILD has written it. Rule R20 leaves it unspecified and asks that no proof can use a value: the
constant has no body. Safe. -/
opaque unbuiltEntry : Nat → Word

end Sys2Proof.Config
end

