-- ==== Sys2Proof/Syntax.lean ====
section
/-! DEFINITION. The six operations of the block with their operands (rule R9, rule R41, rule R44). -/

namespace Sys2Proof

/-- One operation, one constructor per row of the opcode table (rule R41). `acc` is the accumulator
addressed, 0..N_ACC-1 (rule R22); the operands are those of rule R44. -/
inductive Instr
  /-- BUILD: the TableBuilder fills the table (rule R53). -/
  | build
  /-- WRITE: fold the bytes `p` into STATE; `a` is the placement offset 0..7 (rule R75, rule R6). -/
  | write (acc : Nat) (p : List Byte) (a : Fin 8)
  /-- SUM: return `pre` followed by STATE as 8 big-endian bytes (rule R76). -/
  | sum (acc : Nat) (pre : List Byte)
  /-- RESET: STATE to zero (rule R77). -/
  | reset (acc : Nat)
  /-- SIZE: return the constant 8 (rule R78). -/
  | size (acc : Nat)
  /-- BLOCKSIZE: return the constant 8 (rule R79). -/
  | blockSize (acc : Nat)
  deriving DecidableEq, Repr

/-- The accumulator an operation is addressed to; BUILD is the TableBuilder's (rule R9). -/
def Instr.acc? : Instr → Option Nat
  | .build => none
  | .write k _ _ => some k
  | .sum k _ => some k
  | .reset k => some k
  | .size k => some k
  | .blockSize k => some k

end Sys2Proof
end

