-- ==== Sys2Proof/WellFormed.lean ====
section
/-! DEFINITION. Which operations a block with a given number of accumulators has (rule R22). The
placement offset 0..7 (rule R6) and the byte width hold by type, and a byte sequence has no length
bound (decision D9), so the accumulator's number is the one check. -/

namespace Sys2Proof

/-- The operation is addressed to one of the `n` accumulators 0..n-1 (rule R22), or to the
TableBuilder. -/
def WellFormed (n : Nat) (i : Instr) : Bool :=
  match i.acc? with
  | none => true
  | some k => decide (k < n)

end Sys2Proof
end

