-- ==== Sys2Proof/Decode.lean ====
section
/-! DEFINITION. The command word (rule R42, rule R43), the decoder, total on every word and refusing
reserved words by name (rule R46), and the encoder. The source document defines no encoding (rule
R40); the codes are the spec's decision D10. -/

namespace Sys2Proof

/-- What arrives when the host asks for an operation: the 8-bit command word at one accumulator's
command port (rule R42) and the operands beside it (rule R44): one byte sequence (the `p` of WRITE,
the prefix of SUM) and the placement offset of WRITE. An operation that takes no such operand
ignores it. -/
structure Request where
  port : Nat
  word : Byte
  data : List Byte
  offset : Fin 8
  deriving DecidableEq, Repr

/-- Why a command word selects no operation (rule R46). -/
inductive DecodeError
  /-- A bit of the field `rsv` is set. -/
  | reservedBits
  /-- The field `op` is 110 or 111. -/
  | reservedOp
  deriving DecidableEq, Repr

/-- The field `rsv`, bits 7..3 of the command word (rule R42). -/
def rsvField (w : Byte) : BitVec 5 := w.extractLsb' 3 5

/-- The field `op`, bits 2..0 of the command word (rule R42). -/
def opField (w : Byte) : BitVec 3 := w.extractLsb' 0 3

/-- The operation a request asks for (rule R43, rule R44, rule R46). A BUILD word is the
TableBuilder's at whichever port it arrives: nothing in rule R42 gives it an accumulator. -/
def decode (r : Request) : Except DecodeError Instr :=
  if rsvField r.word = 0#5 then
    match (opField r.word).toNat with
    | 0 => .ok .build
    | 1 => .ok (.write r.port r.data r.offset)
    | 2 => .ok (.sum r.port r.data)
    | 3 => .ok (.reset r.port)
    | 4 => .ok (.size r.port)
    | 5 => .ok (.blockSize r.port)
    | _ => .error .reservedOp
  else .error .reservedBits

/-- The command word of an operation (the table of rule R43). -/
def encodeWord : Instr → Byte
  | .build => 0x00
  | .write _ _ _ => 0x01
  | .sum _ _ => 0x02
  | .reset _ => 0x03
  | .size _ => 0x04
  | .blockSize _ => 0x05

/-- The byte sequence that travels beside the command word (rule R44). -/
def encodeData : Instr → List Byte
  | .write _ p _ => p
  | .sum _ pre => pre
  | _ => []

/-- The placement offset that travels beside the command word (rule R44). -/
def encodeOffset : Instr → Fin 8
  | .write _ _ a => a
  | _ => 0

/-- The request that asks for an operation: its word at its accumulator's port, its operands beside
it. BUILD has no port of its own and is shown at port 0 (rule R42). -/
def encode (i : Instr) : Request :=
  { port := i.acc?.getD 0, word := encodeWord i, data := encodeData i, offset := encodeOffset i }

/-- The request with a command word at port 0 and no operand bytes. -/
def wordAtPort0 (w : Nat) : Request :=
  { port := 0, word := BitVec.ofNat 8 w, data := [], offset := 0 }

/-- What the decoder reads from an opcode-table word: one 8-bit command word (rule R42), its operands
empty; `none` where the decoder refuses or the word is not one byte. -/
def decodeTableWord (nbits w : Nat) : Option Instr :=
  if nbits = 8 ∧ w < 256 then
    match decode (wordAtPort0 w) with
    | .ok i => some i
    | .error _ => none
  else none

end Sys2Proof
end

