-- ==== Sys2Proof/Machine/State.lean ====
section
/-! DEFINITION. The state of the block as plain data (rule R10), what the host sees and does (rule R94,
rule R99, rule R114), and the state after reset (rule R20). -/

namespace Sys2Proof.Machine

/-- The table space of rule R25: 64-bit entries by linear address 256 k + n (rule R26), as a list of
(address, entry) pairs in one canonical form, addresses strictly rising and below 2048 (see
`Memory.wf`). An unlisted entry has not been written since reset and reads as a free value. -/
abbrev Memory := List (Nat × Word)

/-- What an operation hands to its caller (rule R44, rule R114). BUILD and RESET hand over nothing. -/
inductive Result
  /-- WRITE: bytesConsumed. -/
  | count (n : Nat)
  /-- SUM: the prefix and the 8 bytes of STATE. -/
  | bytes (out : List Byte)
  /-- SIZE and BLOCKSIZE: the constant. -/
  | constant (n : Nat)
  deriving DecidableEq, Repr

/-- One accumulator with its command port. -/
structure Acc where
  /-- STATE[i], the CRC state register (rule R14). -/
  crc : Word
  /-- The operations issued to this accumulator that have not run yet, oldest first: in progress, or
  held while TABLE_VALID = 0 (rule R94, rule R99). -/
  inProgress : List Instr
  /-- The results handed to this accumulator's caller since reset, oldest first: what rule R114 says
  can be observed. No operation reads it. -/
  returned : List Result
  deriving DecidableEq, Repr

/-- A fresh accumulator: STATE is 0 (rule R20), nothing issued, nothing returned. -/
def Acc.fresh : Acc := { crc := 0, inProgress := [], returned := [] }

/-- Who takes the steps of operations (`00_scope.md` section 7). -/
inductive Agent
  | tableBuilder
  | acc (k : Nat)
  deriving DecidableEq, Repr

/-- One move of the run. The list of moves in State is the schedule that rule R35, rule R36 and rule
R107 leave free; statements hold for every list. -/
inductive Move
  /-- A request arrives and its agent then takes one step at once: the ordinary synchronous call. -/
  | call (r : Request)
  /-- A request arrives; its operation is in progress until its agent takes a step. -/
  | issue (r : Request)
  /-- An agent takes a step: an accumulator runs its oldest issued operation, the TableBuilder runs
  BUILD, at a host's command or on its own (rule R107). -/
  | serve (g : Agent)
  /-- A reset of the whole block (rule R105). -/
  | hardReset
  deriving DecidableEq, Repr

structure State where
  /-- TABLE (rule R11), shared by all accumulators. -/
  table : Memory
  /-- TABLE_VALID (rule R13). -/
  tableValid : Bool
  /-- The accumulators 0..N_ACC-1 (rule R22); N_ACC is the length. -/
  accs : List Acc
  /-- How many BUILD commands of the host the TableBuilder has not run yet (rule R99, rule R107). -/
  pendingBuilds : Nat
  /-- The moves still to come, next first (log entry 5). -/
  agenda : List Move
  deriving DecidableEq, Repr

/-- The faults of the block: none. Rule R90: the table of exceptions is empty, and every operation is
total, so this type has no constructor. Nothing raises a fault. -/
inductive Fault : Type
  deriving DecidableEq, Repr

/-- The requests the model gives no meaning (rule R94). -/
inductive Refusal
  /-- Raised by `exec` for an operation that has no meaning yet; no arm does. Safe. -/
  | notModelled (mnemonic : String)
  /-- Raised when a request arrives whose command word is reserved (rule R46). Safe. -/
  | invalidWord (w : Byte)
  /-- Raised when a request arrives at accumulator `k` while another operation of `k` is in progress
  and one of the two writes STATE (rule R37). Safe. -/
  | overlap (k : Nat)
  /-- Raised when an operation is addressed to a number that is no accumulator of this block (rule
  R22); the spec has no such port (log entry 8). Safe. -/
  | noSuchAcc (k : Nat)
  deriving DecidableEq, Repr

/-- The block after reset (rule R20): STATE[i] = 0 for every accumulator, TABLE_VALID = 0, no table
entry with a value, nothing in progress. -/
def State.reset : State :=
  { table := [], tableValid := false, accs := List.replicate Config.nAcc Acc.fresh,
    pendingBuilds := 0, agenda := [] }

end Sys2Proof.Machine
end

