-- ==== Sys2Proof/Machine/Flags.lean ====
section
/-! DEFINITION. The one status bit, TABLE_VALID (rule R13). The block has no condition codes and no
flag that an operation sets as a side effect (rule R19). -/

namespace Sys2Proof.Machine

/-- May an accumulator operation take its step? Exactly when TABLE_VALID = 1 (rule R34). -/
def State.ready (s : State) : Bool := s.tableValid

/-- BUILD's last write: TABLE_VALID from 0 to 1 (rule R53). Nothing clears the bit but a reset of the
whole block (rule R13, rule R105). -/
def State.setTableValid (s : State) : State := { s with tableValid := true }

end Sys2Proof.Machine
end

