-- ==== Sys2Proof/Machine/Operands.lean ====
section
/-! DEFINITION. The operand forms of the datapath: the low byte as an index, zero extension, the
little-endian assembly of 8 input bytes and the big-endian serialization (rule R28, rule R29, rule
R45). -/

namespace Sys2Proof.Machine

/-- `v AND 0xFF` (rule R7, rule R45): always a byte, so no table index is out of range (rule R26). -/
def lowByte (v : Word) : Byte := v.setWidth 8

/-- `zext_64(b)` (rule R7). -/
def zext64 (b : Byte) : Word := b.setWidth 64

/-- LE64, rule R28: byte j of the word is dj. -/
def le64 (d0 d1 d2 d3 d4 d5 d6 d7 : Byte) : Word :=
  zext64 d0 + (zext64 d1 <<< 8) + (zext64 d2 <<< 16) + (zext64 d3 <<< 24) + (zext64 d4 <<< 32)
    + (zext64 d5 <<< 40) + (zext64 d6 <<< 48) + (zext64 d7 <<< 56)

/-- BE8, rule R29: byte j is (s >> (56 - 8j)) AND 0xFF, most significant byte first. -/
def be8 (s : Word) : List Byte :=
  [lowByte (s >>> 56), lowByte (s >>> 48), lowByte (s >>> 40), lowByte (s >>> 32),
   lowByte (s >>> 24), lowByte (s >>> 16), lowByte (s >>> 8), lowByte s]

/-- The big-endian number of a byte sequence: how a reader of a SUM decodes it (rule R30). -/
def beValue (l : List Byte) : Nat := l.foldl (fun v b => v * 256 + b.toNat) 0

end Sys2Proof.Machine
end

