-- ==== Sys2Proof/Machine/Ops.lean ====
section
/-! DEFINITION. The named operations over the table space, the accumulators and the hold (rule R26,
rule R34, rule R35, rule R94). The block has no trap and no return from one (rule R94): there is no
exception entry here to write. -/

namespace Sys2Proof.Machine

/-- The entry listed at an address. -/
def Memory.find? : Memory → Nat → Option Word
  | [], _ => none
  | (b, v) :: m, a => if a = b then some v else Memory.find? m a

/-- A table read moves the whole 64-bit entry (rule R26); an entry that nothing has written reads as a
free value (rule R20). -/
def Memory.read (m : Memory) (a : Nat) : Word := (m.find? a).getD (Config.unbuiltEntry a)

/-- A table write, which keeps the addresses strictly rising (rule R26). -/
def Memory.write : Memory → Nat → Word → Memory
  | [], a, v => [(a, v)]
  | (b, w) :: m, a, v =>
    if a < b then (a, v) :: (b, w) :: m
    else if a = b then (a, v) :: m
    else (b, w) :: Memory.write m a v

/-- The addresses are strictly rising from above `lo`. -/
def Memory.risingFrom : Nat → Memory → Bool
  | _, [] => true
  | lo, (a, _) :: m => decide (lo ≤ a) && Memory.risingFrom (a + 1) m

/-- The canonical form of the table space: addresses strictly rising, every one below 2048 (rule R25,
rule R26). -/
def Memory.wf (m : Memory) : Bool :=
  Memory.risingFrom 0 m && m.all fun e => decide (e.1 < Config.rows * Config.rowEntries)

/-- The linear address of TABLE[k][n] (rule R26). -/
def tableAddr (k : Nat) (n : Byte) : Nat := Config.rowEntries * k + n.toNat

/-- TABLE[k][n] as read (rule R26). -/
def Memory.entry (m : Memory) (k : Nat) (n : Byte) : Word := m.read (tableAddr k n)

/-- TABLE[k][n] <- v (rule R26). -/
def Memory.setEntry (m : Memory) (k : Nat) (n : Byte) (v : Word) : Memory := m.write (tableAddr k n) v

/-- The state with another table space (rule R12: BUILD is its one writer). -/
def State.setTable (s : State) (m : Memory) : State := { s with table := m }

/-- The state with accumulator `k` replaced; every other accumulator stays (rule R22). -/
def State.setAcc (s : State) (k : Nat) (a : Acc) : State := { s with accs := s.accs.set k a }

/-- The state with another count of waiting BUILD commands. -/
def State.setPendingBuilds (s : State) (n : Nat) : State := { s with pendingBuilds := n }

/-- The state with other moves still to come. -/
def State.setAgenda (s : State) (l : List Move) : State := { s with agenda := l }

/-- The accumulator with other operations in progress. -/
def Acc.setInProgress (a : Acc) (l : List Instr) : Acc := { a with inProgress := l }

/-- Does the operation write STATE? WRITE and RESET do (rule R14). -/
def writesState : Instr → Bool
  | .build => false
  | .write _ _ _ => true
  | .sum _ _ => false
  | .reset _ => true
  | .size _ => false
  | .blockSize _ => false

/-- Two operations of one accumulator that must not overlap: at least one writes STATE (rule R37). -/
def conflict (x y : Instr) : Bool := writesState x || writesState y

/-- The accumulator with an operation held (rule R94): nothing changes, and the operation waits ahead
of those issued after it. -/
def Acc.hold (a : Acc) (op : Instr) : Acc := a.setInProgress (op :: a.inProgress)

/-- The accumulator after its operation has run: the new STATE, and the result handed over. -/
def Acc.complete (a : Acc) (crc : Word) (result : List Result) : Acc :=
  { a with crc := crc, returned := a.returned ++ result }

/-- What the five accumulator operations share (rule R34, rule R35): while TABLE_VALID = 0 the
operation holds; else it is one indivisible step that reads STATE[k], writes STATE[k] and hands over
its result. `op` is the operation itself, which the hold keeps waiting. -/
def accumulatorOp (k : Nat) (op : Instr) (newCrc : Word → Word) (result : Word → List Result)
    (s : State) : Host.Outcome State Fault Refusal :=
  match s.accs[k]? with
  | none => .refused (.noSuchAcc k)
  | some a =>
    if s.ready then .next (s.setAcc k (a.complete (newCrc a.crc) (result a.crc)))
    else .next (s.setAcc k (a.hold op))

end Sys2Proof.Machine
end

