-- ==== Sys2Proof/Machine/TableBuilder.lean ====
section
/-! DEFINITION. The TableBuilder: BITSTEP, ROW0, ROWK and the operation BUILD (rule R50 to rule R58). -/

namespace Sys2Proof.Machine

/-- BITSTEP, rule R50: one round of the reflected update. -/
def bitStep (c : Word) : Word :=
  if c.getLsbD 0 then (c >>> 1) ^^^ Config.poly else c >>> 1

/-- `k` rounds of BITSTEP. -/
def bitSteps : Nat → Word → Word
  | 0, c => c
  | k + 1, c => bitSteps k (bitStep c)

/-- ROW0, rule R51: the CRC of one byte from a zero state. -/
def row0 (n : Byte) : Word := bitSteps Config.bitRounds (0 ^^^ zext64 n)

/-- ROWK, rule R52, over the row 0 that it reads. -/
def rowK (rowZero : Byte → Word) (prev : Word) : Word := rowZero (lowByte prev) ^^^ (prev >>> 8)

/-- The value of TABLE[k][n] (rule R11, rule R51, rule R52): it depends on POLY, k and n alone. -/
def builtEntry : Nat → Byte → Word
  | 0, n => row0 n
  | k + 1, n => rowK row0 (builtEntry k n)

/-- Row `k` of the built table, in rising order of address. -/
def builtRow (k : Nat) : Memory :=
  (List.range Config.rowEntries).map fun n =>
    (tableAddr k (BitVec.ofNat 8 n), builtEntry k (BitVec.ofNat 8 n))

/-- The whole built table (rule R53): all 2048 entries. -/
def builtTable : Memory := (List.range Config.rows).flatMap builtRow

/-- One entry write of the pseudocode of rule R53, over a table space: row 0 from POLY, row `k + 1` from
the entry of row `k` and the row 0 that the table space then holds (rule R57). -/
def fillEntry (m : Memory) (k : Nat) (n : Byte) : Memory :=
  match k with
  | 0 => m.setEntry 0 n (row0 n)
  | k + 1 => m.setEntry (k + 1) n (rowK (m.entry 0) (m.entry k n))

/-- The entry writes of a list of places (k, n), in its order. -/
def fillAll (m : Memory) (places : List (Nat × Byte)) : Memory :=
  places.foldl (fun m e => fillEntry m e.1 e.2) m

/-- The places in the order of the loops of rule R53: row by row, `for n in 0..255` in each. -/
def loopOrder : List (Nat × Byte) :=
  (List.range Config.rows).flatMap fun k =>
    (List.range Config.rowEntries).map fun n => (k, BitVec.ofNat 8 n)

/-- The loops of rule R53 as written there, entry by entry, over a table space. `execBuild` stores
their outcome, `builtTable`, at once; that the two agree on every canonical table space is a
statement about the model (Obligations.BuildLoopGivesBuiltTable). -/
def buildLoop (m : Memory) : Memory := fillAll m loopOrder

/-- BUILD, rule R53 to rule R55: one indivisible transition that writes all 2048 entries and then sets
TABLE_VALID; a BUILD when TABLE_VALID = 1 changes nothing. -/
def execBuild (s : State) : Host.Outcome State Fault Refusal :=
  if s.ready then .next s else .next (s.setTable builtTable).setTableValid

end Sys2Proof.Machine
end

