-- ==== Sys2Proof/Machine/SlicingEngine.lean ====
section
/-! DEFINITION. The SlicingEngine: BYTESTEP, REF, SLICE8 and the three-phase UPDATE (rule R60 to rule
R69). Each reads the table space `m` it is given. -/

namespace Sys2Proof.Machine

/-- BYTESTEP, rule R60: fold one input byte into the state. -/
def byteStep (m : Memory) (s : Word) (b : Byte) : Word :=
  m.entry 0 (lowByte (s ^^^ zext64 b)) ^^^ (s >>> 8)

/-- REF, rule R61: the byte-at-a-time reference. The engine does not run it; statements compare with
it. -/
def ref (m : Memory) : Word → List Byte → Word
  | s, [] => s
  | s, b :: q => ref m (byteStep m s b) q

/-- The index b_i of rule R62: byte i of the prior state against input byte i. -/
def lane (s : Word) (i : Nat) (d : Byte) : Byte := lowByte ((s >>> (8 * i)) ^^^ zext64 d)

/-- SLICE8, rule R62: fold 8 input bytes into the state in one round, byte i through row 7 - i. -/
def slice8 (m : Memory) (s : Word) (d0 d1 d2 d3 d4 d5 d6 d7 : Byte) : Word :=
  m.entry 7 (lane s 0 d0) ^^^ m.entry 6 (lane s 1 d1) ^^^ m.entry 5 (lane s 2 d2)
    ^^^ m.entry 4 (lane s 3 d3) ^^^ m.entry 3 (lane s 4 d4) ^^^ m.entry 2 (lane s 5 d5)
    ^^^ m.entry 1 (lane s 6 d6) ^^^ m.entry 0 (lane s 7 d7)

/-- The same round over the combined word x = s XOR LE64(d) (rule R63): lane i is byte i of x. -/
def sliceWord (m : Memory) (x : Word) : Word :=
  m.entry 7 (lowByte x) ^^^ m.entry 6 (lowByte (x >>> 8)) ^^^ m.entry 5 (lowByte (x >>> 16))
    ^^^ m.entry 4 (lowByte (x >>> 24)) ^^^ m.entry 3 (lowByte (x >>> 32))
    ^^^ m.entry 2 (lowByte (x >>> 40)) ^^^ m.entry 1 (lowByte (x >>> 48))
    ^^^ m.entry 0 (lowByte (x >>> 56))

/-- The transient state of one UPDATE (rule R16): the read cursor, the working state, and the input
bytes from the cursor on. -/
structure Progress where
  cur : Nat
  s : Word
  rest : List Byte
  deriving DecidableEq, Repr

/-- Phase 1, rule R65: bytes one at a time until the position a + cur is a multiple of 8. -/
def phase1 (m : Memory) (a : Nat) : Nat → Word → List Byte → Progress
  | cur, s, [] => ⟨cur, s, []⟩
  | cur, s, b :: q =>
    if (a + cur) % 8 ≠ 0 then phase1 m a (cur + 1) (byteStep m s b) q else ⟨cur, s, b :: q⟩

/-- Phase 2, rule R66: 8 bytes per round while at least 8 remain; the cursor advances by 8. -/
def phase2 (m : Memory) : Nat → Word → List Byte → Progress
  | cur, s, d0 :: d1 :: d2 :: d3 :: d4 :: d5 :: d6 :: d7 :: q =>
    phase2 m (cur + 8) (slice8 m s d0 d1 d2 d3 d4 d5 d6 d7) q
  | cur, s, q => ⟨cur, s, q⟩

/-- Phase 3, rule R67: the final bytes one at a time. -/
def phase3 (m : Memory) : Nat → Word → List Byte → Progress
  | cur, s, [] => ⟨cur, s, []⟩
  | cur, s, b :: q => phase3 m (cur + 1) (byteStep m s b) q

/-- Where UPDATE stands after phase 1. -/
def afterPhase1 (m : Memory) (s : Word) (p : List Byte) (a : Fin 8) : Progress :=
  phase1 m a.val 0 s p

/-- Where UPDATE stands after phase 2. -/
def afterPhase2 (m : Memory) (s : Word) (p : List Byte) (a : Fin 8) : Progress :=
  let g := afterPhase1 m s p a
  phase2 m g.cur g.s g.rest

/-- Where UPDATE stands after phase 3: at the end of the input (rule R69). -/
def afterPhase3 (m : Memory) (s : Word) (p : List Byte) (a : Fin 8) : Progress :=
  let g := afterPhase2 m s p a
  phase3 m g.cur g.s g.rest

/-- UPDATE, rule R64: the whole SlicingEngine, total on every state, every byte sequence and every
placement offset. -/
def update (m : Memory) (s : Word) (p : List Byte) (a : Fin 8) : Word := (afterPhase3 m s p a).s

end Sys2Proof.Machine
end

