-- ==== Sys2Proof/Machine/Accumulator.lean ====
section
/-! DEFINITION. The five operations of an accumulator (rule R75 to rule R79). -/

namespace Sys2Proof.Machine

/-- WRITE, rule R75: STATE becomes UPDATE(STATE, p, a); the result is len(p). -/
def execWrite (k : Nat) (p : List Byte) (a : Fin 8) (s : State) : Host.Outcome State Fault Refusal :=
  accumulatorOp k (.write k p a) (fun crc => update s.table crc p a) (fun _ => [.count p.length]) s

/-- SUM, rule R76: the result is the prefix and BE8(STATE); STATE stays. -/
def execSum (k : Nat) (pre : List Byte) (s : State) : Host.Outcome State Fault Refusal :=
  accumulatorOp k (.sum k pre) id (fun crc => [.bytes (pre ++ be8 crc)]) s

/-- RESET, rule R77: STATE becomes zero; no result. -/
def execReset (k : Nat) (s : State) : Host.Outcome State Fault Refusal :=
  accumulatorOp k (.reset k) (fun _ => 0) (fun _ => []) s

/-- SIZE, rule R78: the result is the constant 8. -/
def execSize (k : Nat) (s : State) : Host.Outcome State Fault Refusal :=
  accumulatorOp k (.size k) id (fun _ => [.constant Config.size]) s

/-- BLOCKSIZE, rule R79: the result is the constant 8. -/
def execBlockSize (k : Nat) (s : State) : Host.Outcome State Fault Refusal :=
  accumulatorOp k (.blockSize k) id (fun _ => [.constant Config.blockSize]) s

end Sys2Proof.Machine
end

