-- ==== Sys2Proof/Machine/Dispatch.lean ====
section
/-! DEFINITION. The meaning of each operation, one arm per constructor of Instr. -/

namespace Sys2Proof.Machine

def exec (i : Instr) (s : State) : Host.Outcome State Fault Refusal :=
  match i with
  | .build => Sys2Proof.Machine.execBuild s
  | .write k p a => Sys2Proof.Machine.execWrite k p a s
  | .sum k pre => Sys2Proof.Machine.execSum k pre s
  | .reset k => Sys2Proof.Machine.execReset k s
  | .size k => Sys2Proof.Machine.execSize k s
  | .blockSize k => Sys2Proof.Machine.execBlockSize k s

end Sys2Proof.Machine
end

