-- ==== Sys2Proof/Machine/Ports.lean ====
section
/-! DEFINITION. The command ports: a request arrives, is decoded, checked for overlap and put in
progress; an agent takes a step (rule R35, rule R37, rule R93, rule R99, rule R107). -/

namespace Sys2Proof.Machine

/-- The agent that runs an operation (rule R9). -/
def home (op : Instr) : Agent :=
  match op.acc? with
  | none => .tableBuilder
  | some k => .acc k

/-- An operation is put in progress at its agent. It is refused, before it or the other runs, where it
overlaps an operation of the same accumulator and one of the two writes STATE (rule R37, rule R93). -/
def enter (op : Instr) (s : State) : Host.Outcome State Fault Refusal :=
  match op.acc? with
  | none => .next (s.setPendingBuilds (s.pendingBuilds + 1))
  | some k =>
    match s.accs[k]? with
    | none => .refused (.noSuchAcc k)
    | some a =>
      if a.inProgress.any (conflict op) then .refused (.overlap k)
      else .next (s.setAcc k (a.setInProgress (a.inProgress ++ [op])))

/-- A request arrives. The word is decoded first, and a reserved word is refused whatever the state
(rule R93). -/
def arrive (r : Request) (s : State) : Host.Outcome State Fault Refusal :=
  match decode r with
  | .error _ => .refused (.invalidWord r.word)
  | .ok op => enter op s

/-- An agent takes a step. An accumulator runs its oldest issued operation, so the operations of one
accumulator happen in the order they were issued (rule R35); with none issued it does nothing. The
TableBuilder runs BUILD, at a command of the host if one waits and on its own if not (rule R107). -/
def serve (g : Agent) (s : State) : Host.Outcome State Fault Refusal :=
  match g with
  | .tableBuilder => exec .build (s.setPendingBuilds (s.pendingBuilds - 1))
  | .acc k =>
    match s.accs[k]? with
    | none => .next s
    | some a =>
      match a.inProgress with
      | [] => .next s
      | op :: rest => exec op (s.setAcc k (a.setInProgress rest))

/-- A synchronous call: the request arrives and its agent takes a step at once. -/
def call (r : Request) (s : State) : Host.Outcome State Fault Refusal :=
  match decode r with
  | .error _ => .refused (.invalidWord r.word)
  | .ok op =>
    match enter op s with
    | .next t => serve (home op) t
    | o => o

/-- A reset of the whole block (rule R105): the state of rule R20 again, for the same number of
accumulators; the host's later moves still come. -/
def hardReset (s : State) : State :=
  { State.reset with accs := List.replicate s.accs.length Acc.fresh, agenda := s.agenda }

/-- One move of the schedule. -/
def perform (v : Move) (s : State) : Host.Outcome State Fault Refusal :=
  match v with
  | .call r => call r s
  | .issue r => arrive r s
  | .serve g => serve g s
  | .hardReset => .next (hardReset s)

/-- The first accumulator of the list with an operation in progress, counting from `k`. -/
def firstBusy : Nat → List Acc → Option Nat
  | _, [] => none
  | k, a :: l => if a.inProgress.isEmpty then firstBusy (k + 1) l else some k

/-- Who moves when the schedule says nothing more: the TableBuilder while TABLE_VALID = 0 or while a
BUILD command waits, then the first accumulator with an operation in progress; nobody at the end of
the run (rule R113, rule R114). -/
def nextAgent (s : State) : Option Agent :=
  if s.tableValid = false ∨ s.pendingBuilds ≠ 0 then some .tableBuilder
  else (firstBusy 0 s.accs).map .acc

/-- A step when the schedule says nothing more; at the end of the run nothing changes. -/
def settle (s : State) : Host.Outcome State Fault Refusal :=
  match nextAgent s with
  | none => .next s
  | some g => serve g s

/-- The state in which the next step is a synchronous call of the request: it is the next move, nothing
else is in progress at its port, and for an accumulator's word the table is built, as the boot
sequence of rule R106 leaves it. -/
def placeCall (s : State) (r : Request) : State :=
  let t : State := if s.tableValid || r.word == 0 then s else (s.setTable builtTable).setTableValid
  { t with accs := t.accs.modify r.port (fun a => a.setInProgress []), agenda := .call r :: t.agenda }

end Sys2Proof.Machine
end

