-- ==== Sys2Proof/Machine/Step.lean ====
section
/-! DEFINITION. One step of the block: the next move of the schedule, or, when it is empty, the agents'
own steps (rule R35, rule R107). -/

namespace Sys2Proof.Machine

/-- One step. -/
def step (s : State) : Host.Outcome State Fault Refusal :=
  match s.agenda with
  | [] => settle s
  | v :: rest => perform v (s.setAgenda rest)

/-- The state whose next step runs the command word `w` at port 0 with empty operands (log entry 6). -/
def State.withFetchWord (s : State) (nbits w : Nat) : State :=
  placeCall s (wordAtPort0 (w % 2 ^ nbits))

end Sys2Proof.Machine
end

