-- ==== Sys2Proof/Safety.lean ====
section
/-! DEFINITION. What statements about whole runs are made of: the invariant of the block and the
outcome that goes on. -/

namespace Sys2Proof.Machine

/-- The machine goes on: the outcome is a next state. -/
def Continues (o : Host.Outcome State Fault Refusal) : Prop := ∃ t, o = .next t

/-- The table space is canonical, and with TABLE_VALID = 1 it is the built table, whole and unchanged
(rule R12, rule R13, rule R34). -/
def State.TableInv (s : State) : Prop :=
  s.table.wf = true ∧ (s.tableValid = true → s.table = builtTable)

/-- What is in progress at accumulator `k` is addressed to `k`, and no two of it conflict (rule R37). -/
def Acc.QueueInv (k : Nat) (a : Acc) : Prop :=
  (∀ op ∈ a.inProgress, op.acc? = some k) ∧
    a.inProgress.Pairwise (fun x y => conflict x y = false)

/-- There is at least one accumulator (rule R6), and every one has a sound queue. -/
def State.PortsInv (s : State) : Prop :=
  0 < s.accs.length ∧ ∀ (k : Nat) (a : Acc), s.accs[k]? = some a → a.QueueInv k

/-- The invariant of the block: it holds at reset and every step keeps it. -/
def State.Inv (s : State) : Prop := s.TableInv ∧ s.PortsInv

/-- Nothing is in progress or waiting (rule R114). -/
def State.AtRest (s : State) : Prop := s.pendingBuilds = 0 ∧ ∀ a ∈ s.accs, a.inProgress = []

/-- The operations issued and not run yet, over all accumulators, with the BUILD commands that wait. -/
def State.outstanding (s : State) : Nat :=
  s.pendingBuilds + (s.accs.map fun a => a.inProgress.length).sum

/-- The block of rule R10 is the same in both states, and so is what it has returned: TABLE, TABLE_VALID,
every STATE and every result. It is what "nothing changes" of rule R94 says of a hold. -/
def State.SameBlock (t s : State) : Prop :=
  t.table = s.table ∧ t.tableValid = s.tableValid ∧
    t.accs.map (fun a => (a.crc, a.returned)) = s.accs.map (fun a => (a.crc, a.returned))

/-- The next step is one that accumulator `j` takes, and `op` is the operation it runs: the oldest one
issued to it (rule R35), where a call's operation has just been issued. -/
def State.Runs (s : State) (j : Nat) (op : Instr) : Prop :=
  ∃ a, s.accs[j]? = some a ∧
    match s.agenda with
    | .call r :: _ =>
      ∃ x, decode r = .ok x ∧ x.acc? = some j ∧ (a.inProgress ++ [x]).head? = some op
    | .serve g :: _ => g = .acc j ∧ a.inProgress.head? = some op
    | .issue _ :: _ => False
    | .hardReset :: _ => False
    | [] => nextAgent s = some (.acc j) ∧ a.inProgress.head? = some op

end Sys2Proof.Machine
end

