-- ==== Sys2Proof/Certificates/Slice0/Obligations.lean ====
section
/-! DEFINITION. The statements for the provers, grouped as the spec's files are. -/

open Sys2Proof Sys2Proof.Machine

/-! ### Command words and one step (30_encoding.md, 20_memory.md, 60_exceptions.md) -/

/-- Rule R43: the six command words decode to the six operations, with whatever operands travel beside
them, and the words 0x06 and 0x07 are reserved. -/
def Obligations.CommandWordsDecode : Prop :=
  ∀ (k : Nat) (p : List Byte) (a : Fin 8),
    decode ⟨0, 0x00, p, a⟩ = .ok .build ∧
    decode ⟨k, 0x01, p, a⟩ = .ok (.write k p a) ∧
    decode ⟨k, 0x02, p, a⟩ = .ok (.sum k p) ∧
    decode ⟨k, 0x03, p, a⟩ = .ok (.reset k) ∧
    decode ⟨k, 0x04, p, a⟩ = .ok (.size k) ∧
    decode ⟨k, 0x05, p, a⟩ = .ok (.blockSize k) ∧
    decode ⟨k, 0x06, p, a⟩ = .error .reservedOp ∧
    decode ⟨k, 0x07, p, a⟩ = .error .reservedOp

/-- Rule R46: a word is refused exactly when `op` is 110 or 111 or a bit of `rsv` is set; a request
with such a word is refused whatever the state, on a call and on an arrival; and of the 256 words
250 are refused. -/
def Obligations.ReservedWordsAreRefused : Prop :=
  (∀ r : Request, (∃ e, decode r = .error e) ↔
      (r.word.extractLsb' 0 3 = 6 ∨ r.word.extractLsb' 0 3 = 7 ∨ r.word.extractLsb' 3 5 ≠ 0)) ∧
  (∀ (r : Request) (e : DecodeError) (s : State) (rest : List Move), decode r = .error e →
      step (s.setAgenda (.call r :: rest)) = .refused (.invalidWord r.word) ∧
      step (s.setAgenda (.issue r :: rest)) = .refused (.invalidWord r.word)) ∧
  ((List.range 256).filter fun w => (decodeTableWord 8 w).isNone).length = 250

/-- Rule R42, rule R43, rule R44: decoding what `encode` lays out gives the operation back, every
operand at every value; and a request decodes to an operation exactly when it has that operation's
word, port and operands. That the BUILD word is BUILD at every port is the model's (log entry 9). -/
def Obligations.DecodeAndEncodeAgree : Prop :=
  (∀ i : Instr, decode (encode i) = .ok i) ∧
  (∀ (r : Request) (i : Instr), decode r = .ok i ↔
    match i with
    | .build => r.word = 0x00
    | .write k p a => r.word = 0x01 ∧ r.port = k ∧ r.data = p ∧ r.offset = a
    | .sum k pre => r.word = 0x02 ∧ r.port = k ∧ r.data = pre
    | .reset k => r.word = 0x03 ∧ r.port = k
    | .size k => r.word = 0x04 ∧ r.port = k
    | .blockSize k => r.word = 0x05 ∧ r.port = k)

/-- Rule R35, rule R93: when the next move is a call whose request decodes to `i`, and nothing else is
in progress at the accumulator that `i` is addressed to, the step is `exec i` of the state, with
nothing around it but the move being used up. The agenda of moves is the model's (log entry 5). -/
def Obligations.StepRunsDecodedOperation : Prop :=
  ∀ (s : State) (r : Request) (rest : List Move) (i : Instr),
    s.agenda = .call r :: rest → decode r = .ok i →
    (∀ k, i.acc? = some k → ∃ a, s.accs[k]? = some a ∧ a.inProgress = []) →
    step s = exec i (s.setAgenda rest)

/-- Log entry 6 (the model's choice): in the state that places a command word, the next step is `exec`
of the operation that the decoder reads from it, with the agenda as it was; and for an accumulator's
word the table is built there. -/
def Obligations.PlacedWordRuns : Prop :=
  ∀ (s : State) (w : Nat) (i : Instr),
    decodeTableWord 8 w = some i → 0 < s.accs.length →
    step (s.withFetchWord 8 w) = exec i ((s.withFetchWord 8 w).setAgenda s.agenda) ∧
    (i ≠ .build → (s.withFetchWord 8 w).tableValid = true)

/-- Rule R35: a call is an arrival and then one step of the agent of its operation. -/
def Obligations.CallIsArrivalThenAgentStep : Prop :=
  ∀ (s : State) (r : Request) (op : Instr) (rest : List Move), decode r = .ok op →
    step (s.setAgenda (.call r :: rest)) =
      match step (s.setAgenda (.issue r :: .serve (home op) :: rest)) with
      | .next t => step t
      | o => o

/-! ### Reset, boot, end of the run (10_state.md, 70_reset_and_hazards.md) -/

/-- Rule R20: after reset every STATE is 0, TABLE_VALID is 0, and no table entry has a value but the
free one (log entry 2); nothing is in progress. That N_ACC is at least 1 is rule R6. -/
def Obligations.ResetLeaves : Prop :=
  State.reset.tableValid = false ∧ State.reset.accs.length = Config.nAcc ∧ 1 ≤ Config.nAcc ∧
  (∀ (k : Nat) (a : Acc), State.reset.accs[k]? = some a →
    a.crc = 0 ∧ a.inProgress = [] ∧ a.returned = []) ∧
  (∀ (k : Nat) (n : Byte), State.reset.table.entry k n = Config.unbuiltEntry (tableAddr k n)) ∧
  State.reset.pendingBuilds = 0

/-- Rule R105, rule R106: the step from reset is BUILD. -/
def Obligations.FirstStepAfterResetIsBuild : Prop :=
  step State.reset = exec .build State.reset ∧
  step State.reset = .next (State.reset.setTable builtTable).setTableValid

/-- Rule R105: a later reset of the whole block returns it to the state after reset, for the same
number of accumulators. That the host's later moves still come is the model's (log entry 5). -/
def Obligations.HardResetReturnsToReset : Prop :=
  ∀ (s : State) (rest : List Move), s.agenda = .hardReset :: rest →
    ∃ t, step s = .next t ∧ t.table = State.reset.table ∧ t.tableValid = State.reset.tableValid ∧
      t.accs = List.replicate s.accs.length Acc.fresh ∧
      t.pendingBuilds = State.reset.pendingBuilds ∧ t.agenda = rest

/-- Rule R107: whenever the TableBuilder takes its step, at a command or on its own, it completes: the
table is valid, no accumulator is touched, and a waiting BUILD command is used up. -/
def Obligations.BuildAtAnyMoment : Prop :=
  ∀ (s : State) (rest : List Move), s.agenda = .serve .tableBuilder :: rest →
    ∃ t, step s = .next t ∧ t.tableValid = true ∧ t.accs = s.accs ∧
      t.pendingBuilds = s.pendingBuilds - 1 ∧ t.agenda = rest ∧
      (s.tableValid = false → t.table = builtTable) ∧ (s.tableValid = true → t.table = s.table)

/-- Rule R114: when the schedule is used up, the table is built and nothing is in progress or waiting,
the run has ended and a step changes nothing (log entry 5). -/
def Obligations.RunEndsAtRest : Prop :=
  ∀ s : State, s.agenda = [] → s.tableValid = true → s.AtRest → step s = .next s

/-! ### The TableBuilder (40_table_builder.md) -/

/-- Rule R50: if the low bit is set, shift right and XOR POLY, else shift right; with the rule's corner
cases and the linearity that the rule derives. The value of POLY (log entry 1) does not enter. -/
def Obligations.BitStepShiftsAndFeedsBack : Prop :=
  ∀ c e : Word,
    (c.toNat % 2 = 1 → (bitStep c).toNat = c.toNat / 2 ^^^ Config.poly.toNat) ∧
    (c.toNat % 2 = 0 → (bitStep c).toNat = c.toNat / 2) ∧
    bitStep (c ^^^ e) = bitStep c ^^^ bitStep e ∧
    bitStep 0 = 0 ∧ bitStep 1 = Config.poly

/-- Rule R53: BUILD on an unbuilt table completes; row 0 is eight rounds of each byte from a zero
state, every later entry is ROWK of the one before it, TABLE_VALID is set, and nothing else changes;
BUILD on a built table returns at once. -/
def Obligations.BuildFillsTable : Prop :=
  (∀ s : State, s.tableValid = true → exec .build s = .next s) ∧
  ∀ s : State, s.tableValid = false →
    ∃ t, exec .build s = .next t ∧ t.tableValid = true ∧ t.table.wf = true ∧
      (∀ n : Byte, t.table.entry 0 n =
        bitStep (bitStep (bitStep (bitStep (bitStep (bitStep (bitStep (bitStep (zext64 n))))))))) ∧
      (∀ (k : Nat) (n : Byte), k < 7 → t.table.entry (k + 1) n =
        t.table.entry 0 (lowByte (t.table.entry k n)) ^^^ (t.table.entry k n >>> 8)) ∧
      t.accs = s.accs ∧ t.pendingBuilds = s.pendingBuilds ∧ t.agenda = s.agenda

/-- Rule R54: BUILD always completes, and always with the same table. -/
def Obligations.BuildIsTotal : Prop :=
  ∀ s : State, ∃ t, exec .build s = .next t ∧ t.tableValid = true ∧
    (s.tableValid = false → t.table = builtTable)

/-- Rule R55: a BUILD when TABLE_VALID = 1 writes nothing. -/
def Obligations.RepeatedBuildChangesNothing : Prop :=
  ∀ s : State, s.tableValid = true → exec .build s = .next s

/-- Rule R53: the loops of the pseudocode, entry by entry over any canonical table space, end with the
table that BUILD stores. -/
def Obligations.BuildLoopGivesBuiltTable : Prop :=
  ∀ m : Memory, m.wf = true → buildLoop m = builtTable

/-- What rule R57 derives ("Any order of the 2048 writes that respects this"): every order of the entry
writes in which an entry of row k + 1 comes after the entry of row k and the row-0 entry that it needs
gives the same table. -/
def Obligations.AdmissibleWriteOrdersAgree : Prop :=
  ∀ (m : Memory) (order : List (Nat × Byte)), m.wf = true →
    (∀ e ∈ order, e.1 < 8) →
    (∀ (k : Nat) (n : Byte), k < 8 → (k, n) ∈ order) →
    (∀ (done later : List (Nat × Byte)) (k : Nat) (n : Byte),
      order = done ++ (k + 1, n) :: later →
        (k, n) ∈ done ∧ (0, lowByte (builtEntry k n)) ∈ done) →
    fillAll m order = builtTable

/-- What rule R58 derives from rule R51 and rule R52: with Z(v) = TABLE[0][v AND 0xFF] XOR (v >> 8),
TABLE[k][n] is Z applied k + 1 times to n in the low byte. -/
def Obligations.EntryIsZeroStepsOfByte : Prop :=
  ∀ (k : Nat) (n : Byte), k < 8 →
    builtTable.entry k n =
      (fun v : Word => builtTable.entry 0 (lowByte v) ^^^ (v >>> 8))^[k + 1] (zext64 n)

/-- Rule R51: TABLE[0][n] is n after exactly eight bit rounds; 0 gives 0, 0x80 gives POLY, and the row is
linear in its index, as the rule derives. -/
def Obligations.RowZeroIsEightRounds : Prop :=
  (∀ n : Byte, builtTable.entry 0 n = bitSteps 8 (zext64 n)) ∧
  builtTable.entry 0 0 = 0 ∧ builtTable.entry 0 0x80 = Config.poly ∧
  ∀ m n : Byte, builtTable.entry 0 (m ^^^ n) = builtTable.entry 0 m ^^^ builtTable.entry 0 n

/-- Rule R52: TABLE[k+1][n] is ROWK of TABLE[k][n], which is the byte step with a zero byte; TABLE[k][n]
is the state reached from 0 by the byte n and k zero bytes; each row is linear in its index (both
derived by the rule), and TABLE[k][0] = 0. -/
def Obligations.RowsFoldTrailingZeros : Prop :=
  (∀ (k : Nat) (n : Byte), k < 7 → builtTable.entry (k + 1) n =
      builtTable.entry 0 (lowByte (builtTable.entry k n)) ^^^ (builtTable.entry k n >>> 8) ∧
    builtTable.entry (k + 1) n = byteStep builtTable (builtTable.entry k n) 0) ∧
  ∀ (k : Nat) (m n : Byte), k < 8 →
    builtTable.entry k n = ref builtTable 0 (n :: List.replicate k 0) ∧
    builtTable.entry k (m ^^^ n) = builtTable.entry k m ^^^ builtTable.entry k n ∧
    builtTable.entry k 0 = 0

/-- Rule R34, rule R91: in a state of the invariant with TABLE_VALID = 1 every table entry has been
written and has its built value, so no operation that runs reads an unbuilt entry. -/
def Obligations.ValidTableHasNoUnbuiltEntry : Prop :=
  ∀ (s : State) (k : Nat) (n : Byte), s.Inv → s.tableValid = true → k < 8 →
    s.table.find? (tableAddr k n) = some (builtEntry k n)

/-! ### Byte order (20_memory.md) -/

/-- Rule R28: LE64 is the sum of the shifted bytes, its byte j is dj, and a single byte meets the low
byte of the state. -/
def Obligations.LittleEndianAssembly : Prop :=
  ∀ (s : Word) (d0 d1 d2 d3 d4 d5 d6 d7 : Byte),
    (le64 d0 d1 d2 d3 d4 d5 d6 d7).toNat =
      d0.toNat + 2 ^ 8 * d1.toNat + 2 ^ 16 * d2.toNat + 2 ^ 24 * d3.toNat + 2 ^ 32 * d4.toNat
        + 2 ^ 40 * d5.toNat + 2 ^ 48 * d6.toNat + 2 ^ 56 * d7.toNat ∧
    (∀ (j : Nat) (d : Byte), [d0, d1, d2, d3, d4, d5, d6, d7][j]? = some d →
      (le64 d0 d1 d2 d3 d4 d5 d6 d7).extractLsb' (8 * j) 8 = d) ∧
    lowByte (s ^^^ zext64 d0) = lowByte s ^^^ d0 ∧ (s ^^^ zext64 d0) >>> 8 = s >>> 8

/-- Rule R29: BE8 is 8 bytes, byte j is (s >> (56 - 8j)) AND 0xFF. -/
def Obligations.BigEndianOutput : Prop :=
  ∀ s : Word, (be8 s).length = 8 ∧
    ∀ j : Nat, j < 8 →
      ((be8 s)[j]?.map BitVec.toNat) = some (s.toNat / 2 ^ (56 - 8 * j) % 256)

/-! ### The SlicingEngine (41_slicing_engine.md) -/

/-- Rule R60: the table index is the low byte of the state against the byte, the shift is logical; a
byte equal to the low byte leaves the pure shift; the step is linear in the pair. -/
def Obligations.ByteStepFoldsOneByte : Prop :=
  (∀ (m : Memory) (s : Word) (b : Byte),
    byteStep m s b = m.entry 0 (lowByte s ^^^ b) ^^^ (s >>> 8)) ∧
  (∀ s : Word, byteStep builtTable s (lowByte s) = s >>> 8) ∧
  (∀ (s t : Word) (b c : Byte), byteStep builtTable (s ^^^ t) (b ^^^ c) =
    byteStep builtTable s b ^^^ byteStep builtTable t c)

/-- Rule R61: REF applies BYTESTEP to each byte in order, composes over concatenation, keeps a zero
state at zero on zero bytes, and gives the row-0 entry on one byte from zero. -/
def Obligations.ReferenceComposes : Prop :=
  (∀ (m : Memory) (s : Word), ref m s [] = s) ∧
  (∀ (m : Memory) (s : Word) (b : Byte) (q : List Byte),
    ref m s (b :: q) = ref m (byteStep m s b) q) ∧
  (∀ (m : Memory) (s : Word) (p q : List Byte), ref m s (p ++ q) = ref m (ref m s p) q) ∧
  (∀ n : Nat, ref builtTable 0 (List.replicate n 0) = 0) ∧
  (∀ b : Byte, ref builtTable 0 [b] = builtTable.entry 0 b)

/-- Rule R62: byte i of the prior state against input byte i selects the entry of row 7 - i, and the
eight entries are combined by exclusive-or; input equal to the state's bytes gives 0. -/
def Obligations.SliceCombinesEightRows : Prop :=
  (∀ (m : Memory) (s : Word) (d0 d1 d2 d3 d4 d5 d6 d7 : Byte),
    slice8 m s d0 d1 d2 d3 d4 d5 d6 d7 =
      m.entry 7 (s.extractLsb' 0 8 ^^^ d0) ^^^ m.entry 6 (s.extractLsb' 8 8 ^^^ d1)
        ^^^ m.entry 5 (s.extractLsb' 16 8 ^^^ d2) ^^^ m.entry 4 (s.extractLsb' 24 8 ^^^ d3)
        ^^^ m.entry 3 (s.extractLsb' 32 8 ^^^ d4) ^^^ m.entry 2 (s.extractLsb' 40 8 ^^^ d5)
        ^^^ m.entry 1 (s.extractLsb' 48 8 ^^^ d6) ^^^ m.entry 0 (s.extractLsb' 56 8 ^^^ d7)) ∧
  (∀ s : Word, slice8 builtTable s (s.extractLsb' 0 8) (s.extractLsb' 8 8) (s.extractLsb' 16 8)
    (s.extractLsb' 24 8) (s.extractLsb' 32 8) (s.extractLsb' 40 8) (s.extractLsb' 48 8)
    (s.extractLsb' 56 8) = 0)

/-- What rule R63 derives from rule R62 and rule R28: the round over the combined word x = s XOR LE64(d)
is the same round. -/
def Obligations.SliceOverCombinedWord : Prop :=
  ∀ (m : Memory) (s : Word) (d0 d1 d2 d3 d4 d5 d6 d7 : Byte),
    slice8 m s d0 d1 d2 d3 d4 d5 d6 d7 = sliceWord m (s ^^^ le64 d0 d1 d2 d3 d4 d5 d6 d7)

/-- Rule R65: phase 1 consumes min(n, (8 - a) mod 8) bytes by the byte step. -/
def Obligations.Phase1ConsumesPrefix : Prop :=
  ∀ (m : Memory) (s : Word) (p : List Byte) (a : Fin 8),
    (afterPhase1 m s p a).cur = min p.length ((8 - a.val) % 8) ∧
    (afterPhase1 m s p a).s = ref m s (p.take ((8 - a.val) % 8)) ∧
    (afterPhase1 m s p a).rest = p.drop ((8 - a.val) % 8)

/-- Rule R66: each round applies SLICE8 to the next 8 bytes and advances the cursor by 8; phase 2 runs
floor((n - cur1) / 8) rounds and leaves fewer than 8 bytes. -/
def Obligations.Phase2RunsWholeRounds : Prop :=
  (∀ (m : Memory) (cur : Nat) (s : Word) (d0 d1 d2 d3 d4 d5 d6 d7 : Byte) (q : List Byte),
    phase2 m cur s (d0 :: d1 :: d2 :: d3 :: d4 :: d5 :: d6 :: d7 :: q) =
      phase2 m (cur + 8) (slice8 m s d0 d1 d2 d3 d4 d5 d6 d7) q) ∧
  (∀ (m : Memory) (cur : Nat) (s : Word) (q : List Byte), q.length < 8 →
    phase2 m cur s q = ⟨cur, s, q⟩) ∧
  (∀ (m : Memory) (s : Word) (p : List Byte) (a : Fin 8),
    (afterPhase2 m s p a).cur = (afterPhase1 m s p a).cur
      + 8 * ((p.length - (afterPhase1 m s p a).cur) / 8) ∧
    (afterPhase2 m s p a).rest = p.drop (afterPhase2 m s p a).cur ∧
    (afterPhase2 m s p a).rest.length < 8)

/-- Rule R67, rule R69: phase 3 takes the (n - cur1) mod 8 bytes that are left one at a time, and ends
with every byte consumed once. -/
def Obligations.Phase3ConsumesRemainder : Prop :=
  ∀ (m : Memory) (s : Word) (p : List Byte) (a : Fin 8),
    (afterPhase3 m s p a).s = ref m (afterPhase2 m s p a).s (afterPhase2 m s p a).rest ∧
    (afterPhase2 m s p a).rest.length = (p.length - (afterPhase1 m s p a).cur) % 8 ∧
    (afterPhase3 m s p a).cur = p.length ∧ (afterPhase3 m s p a).rest = []

/-- Rule R68: the empty input runs no loop and leaves the state. What the rule derives from rule R64: an
input no longer than the prefix is consumed whole by phase 1, one of fewer than 8 bytes with a = 0
comes whole to phase 3, and in both cases the result is the byte-at-a-time reference directly. -/
def Obligations.ShortInputsTakeNoRound : Prop :=
  (∀ (m : Memory) (s : Word) (a : Fin 8),
    afterPhase3 m s [] a = ⟨0, s, []⟩ ∧ update m s [] a = s) ∧
  (∀ (m : Memory) (s : Word) (p : List Byte) (a : Fin 8), p.length ≤ (8 - a.val) % 8 →
    afterPhase1 m s p a = ⟨p.length, ref m s p, []⟩ ∧ update m s p a = ref m s p) ∧
  (∀ (m : Memory) (s : Word) (p : List Byte), p.length < 8 →
    afterPhase2 m s p 0 = ⟨0, s, p⟩ ∧ update m s p 0 = ref m s p)

/-- Rule R70, the cross-check: one round equals eight byte steps, and UPDATE equals REF, for every
state, byte sequence and placement offset, on the built table. -/
def Obligations.SlicingEqualsReference : Prop :=
  (∀ (s : Word) (d0 d1 d2 d3 d4 d5 d6 d7 : Byte),
    slice8 builtTable s d0 d1 d2 d3 d4 d5 d6 d7 =
      ref builtTable s [d0, d1, d2, d3, d4, d5, d6, d7]) ∧
  (∀ (s : Word) (p : List Byte) (a : Fin 8), update builtTable s p a = ref builtTable s p)

/-- Rule R71: checksums of a buffer and of a copy placed at a different offset are equal. -/
def Obligations.PlacementNeverMatters : Prop :=
  ∀ (s : Word) (p : List Byte) (a a' : Fin 8),
    update builtTable s p a = update builtTable s p a'

/-- Rule R72: two updates are one update of the joined bytes, at every split and every placement. -/
def Obligations.UpdatesCompose : Prop :=
  ∀ (s : Word) (p q : List Byte) (a1 a2 a3 : Fin 8),
    update builtTable (update builtTable s p a1) q a2 = update builtTable s (p ++ q) a3

/-! ### The Accumulator (42_accumulator.md) -/

/-- Rule R75: WRITE completes with STATE replaced by UPDATE(STATE, p, a) and the result len(p), every
other part of the state as it was; in a state of the invariant the new STATE is REF(STATE, p). While
TABLE_VALID = 0 it holds: nothing of the block changes and nothing is returned. -/
def Obligations.WriteCompletes : Prop :=
  ∀ (s : State) (k : Nat) (acc : Acc) (p : List Byte) (a : Fin 8), s.accs[k]? = some acc →
    (s.tableValid = true →
      exec (.write k p a) s = .next (s.setAcc k
        { acc with crc := update s.table acc.crc p a
                   returned := acc.returned ++ [.count p.length] }) ∧
      (s.Inv → update s.table acc.crc p a = ref builtTable acc.crc p)) ∧
    (s.tableValid = false → ∀ t, exec (.write k p a) s = .next t → t.SameBlock s)

/-- Rule R76: SUM completes with the result prefix ++ BE8(STATE) and changes nothing else; while
TABLE_VALID = 0 it holds: nothing of the block changes and nothing is returned. -/
def Obligations.SumCompletes : Prop :=
  ∀ (s : State) (k : Nat) (acc : Acc) (pre : List Byte), s.accs[k]? = some acc →
    (s.tableValid = true → exec (.sum k pre) s = .next (s.setAcc k
      { acc with returned := acc.returned ++ [.bytes (pre ++ be8 acc.crc)] })) ∧
    (s.tableValid = false → ∀ t, exec (.sum k pre) s = .next t → t.SameBlock s)

/-- Rule R77: RESET completes with STATE zero and no result; while TABLE_VALID = 0 it holds: nothing of
the block changes and nothing is returned. -/
def Obligations.ResetCompletes : Prop :=
  ∀ (s : State) (k : Nat) (acc : Acc), s.accs[k]? = some acc →
    (s.tableValid = true →
      exec (.reset k) s = .next (s.setAcc k { acc with crc := 0x0000000000000000 })) ∧
    (s.tableValid = false → ∀ t, exec (.reset k) s = .next t → t.SameBlock s)

/-- Rule R78, rule R79: SIZE and BLOCKSIZE complete with the result 8 and change nothing else; while
TABLE_VALID = 0 they hold: nothing of the block changes and nothing is returned. -/
def Obligations.SizeAndBlockSizeComplete : Prop :=
  ∀ (s : State) (k : Nat) (acc : Acc), s.accs[k]? = some acc →
    (s.tableValid = true →
      exec (.size k) s = .next (s.setAcc k
        { acc with returned := acc.returned ++ [.constant 8] }) ∧
      exec (.blockSize k) s = .next (s.setAcc k
        { acc with returned := acc.returned ++ [.constant 8] })) ∧
    (s.tableValid = false → ∀ t,
      (exec (.size k) s = .next t → t.SameBlock s) ∧
      (exec (.blockSize k) s = .next t → t.SameBlock s))

/-- Rule R34, rule R94: while TABLE_VALID = 0 an accumulator operation holds: the only change is that it
waits at its accumulator, first in line. That a hold is a next state with a place in line is the
model's (log entry 13). -/
def Obligations.OperationsHoldBeforeBuild : Prop :=
  ∀ (s : State) (op : Instr) (k : Nat) (acc : Acc),
    op.acc? = some k → s.tableValid = false → s.accs[k]? = some acc →
    exec op s = .next (s.setAcc k { acc with inProgress := op :: acc.inProgress })

/-- Rule R84: the frame of WRITE, SUM, RESET, SIZE and BLOCKSIZE of accumulator k, run or held: every
table entry, TABLE_VALID, the waiting BUILD commands, the agenda and every other accumulator are
unchanged; at k, SUM, SIZE and BLOCKSIZE leave STATE, every result already handed over stays, and
nothing in progress is lost. -/
def Obligations.AccumulatorOperationFrame : Prop :=
  ∀ (s t : State) (op : Instr) (k : Nat) (acc : Acc),
    op.acc? = some k → s.accs[k]? = some acc → exec op s = .next t →
    (∀ a : Nat, t.table.read a = s.table.read a) ∧ t.table = s.table ∧
    t.tableValid = s.tableValid ∧ t.pendingBuilds = s.pendingBuilds ∧ t.agenda = s.agenda ∧
    t.accs.length = s.accs.length ∧ (∀ j : Nat, j ≠ k → t.accs[j]? = s.accs[j]?) ∧
    ∃ acc', t.accs[k]? = some acc' ∧ (writesState op = false → acc'.crc = acc.crc) ∧
      acc.returned <+: acc'.returned ∧ acc.inProgress <:+ acc'.inProgress

/-- The frame of BUILD (rule R53, rule R84): whatever its outcome is, no accumulator, no waiting command
and no move is touched, and a table that is valid stays as it is. -/
def Obligations.BuildFrame : Prop :=
  ∀ s t : State, exec .build s = .next t →
    t.accs = s.accs ∧ t.pendingBuilds = s.pendingBuilds ∧ t.agenda = s.agenda ∧
    (s.tableValid = true → ∀ a : Nat, t.table.read a = s.table.read a) ∧
    (∀ a : Nat, 2048 ≤ a → s.table.wf = true → t.table.read a = s.table.read a)

/-- Rule R80: after reset and after RESET the STATE is 0, and a WRITE of the empty sequence never
changes STATE and returns 0; the SUM of a zero STATE is eight zero bytes after the prefix. -/
def Obligations.ZeroAndIdentity : Prop :=
  (∀ (k : Nat) (acc : Acc), State.reset.accs[k]? = some acc → acc.crc = 0) ∧
  (∀ (s : State) (k : Nat) (acc : Acc), s.tableValid = true → s.accs[k]? = some acc →
    ∃ t acc', exec (.reset k) s = .next t ∧ t.accs[k]? = some acc' ∧ acc'.crc = 0) ∧
  (∀ (s : State) (k : Nat) (acc : Acc) (a : Fin 8), s.tableValid = true → s.accs[k]? = some acc →
    exec (.write k [] a) s =
      .next (s.setAcc k { acc with returned := acc.returned ++ [.count 0] })) ∧
  (∀ (s : State) (k : Nat) (acc : Acc) (pre : List Byte), s.tableValid = true →
    s.accs[k]? = some acc → acc.crc = 0 →
    exec (.sum k pre) s = .next (s.setAcc k
      { acc with returned := acc.returned ++ [.bytes (pre ++ [0, 0, 0, 0, 0, 0, 0, 0])] }))

/-- Rule R81: RESET, WRITE X, SUM at a used accumulator end with the STATE and the SUM of WRITE X, SUM
at a fresh one, for all X and all placements. -/
def Obligations.NoResidualLeakage : Prop :=
  ∀ (s u : State) (k j : Nat) (acc new : Acc) (x pre : List Byte) (a a' : Fin 8),
    s.Inv → u.Inv → s.tableValid = true → u.tableValid = true →
    s.accs[k]? = some acc → u.accs[j]? = some new → new.crc = 0 →
    ∃ s1 s2 s3 u1 u2 acc' new',
      exec (.reset k) s = .next s1 ∧ exec (.write k x a) s1 = .next s2 ∧
      exec (.sum k pre) s2 = .next s3 ∧
      exec (.write j x a') u = .next u1 ∧ exec (.sum j pre) u1 = .next u2 ∧
      s3.accs[k]? = some acc' ∧ u2.accs[j]? = some new' ∧ acc'.crc = new'.crc ∧
      acc'.returned.getLast? = new'.returned.getLast?

/-- Rule R82: the last 8 bytes of a SUM result, read as a big-endian number, are STATE; and different
states give different outputs. -/
def Obligations.SumRoundTrip : Prop :=
  (∀ (s : State) (k : Nat) (acc : Acc) (pre : List Byte), s.tableValid = true →
    s.accs[k]? = some acc → ∃ t acc' out, exec (.sum k pre) s = .next t ∧
      t.accs[k]? = some acc' ∧ acc'.returned = acc.returned ++ [.bytes out] ∧
      out.length = pre.length + 8 ∧ out.take pre.length = pre ∧
      beValue (out.drop pre.length) = acc.crc.toNat) ∧
  (∀ (x y : Word) (pre : List Byte), pre ++ be8 x = pre ++ be8 y → x = y)

/-- Rule R83: WRITE A; WRITE B; SUM equals WRITE (A ++ B); SUM in STATE and output, and the WRITEs return
len(A), len(B) and len(A) + len(B); a SUM, SIZE or BLOCKSIZE between the two WRITEs leaves STATE as
it was and changes none of this. -/
def Obligations.WritesCompose : Prop :=
  ∀ (s : State) (k : Nat) (acc : Acc) (x y pre : List Byte) (a1 a2 a3 : Fin 8),
    s.Inv → s.tableValid = true → s.accs[k]? = some acc →
    ∃ s1 s2 s3 u1 u2 b1 b2 b3 c1 c2,
      exec (.write k x a1) s = .next s1 ∧ exec (.write k y a2) s1 = .next s2 ∧
      exec (.sum k pre) s2 = .next s3 ∧
      exec (.write k (x ++ y) a3) s = .next u1 ∧ exec (.sum k pre) u1 = .next u2 ∧
      s1.accs[k]? = some b1 ∧ s2.accs[k]? = some b2 ∧ s3.accs[k]? = some b3 ∧
      u1.accs[k]? = some c1 ∧ u2.accs[k]? = some c2 ∧
      b2.crc = c1.crc ∧ b3.crc = c2.crc ∧ b3.returned.getLast? = c2.returned.getLast? ∧
      b1.returned.getLast? = some (.count x.length) ∧
      b2.returned.getLast? = some (.count y.length) ∧
      c1.returned.getLast? = some (.count (x.length + y.length)) ∧
      ∀ mid : Instr, mid.acc? = some k → writesState mid = false →
        ∃ v1 v2 v3 d1 d2 d3,
          exec mid s1 = .next v1 ∧ exec (.write k y a2) v1 = .next v2 ∧
          exec (.sum k pre) v2 = .next v3 ∧
          v1.accs[k]? = some d1 ∧ v2.accs[k]? = some d2 ∧ v3.accs[k]? = some d3 ∧
          d1.crc = b1.crc ∧ d3.crc = c2.crc ∧
          d3.returned.getLast? = c2.returned.getLast? ∧
          d2.returned.getLast? = some (.count y.length)

/-! ### Order, overlap and independence (20_memory.md, 60_exceptions.md) -/

/-- Rule R35, rule R21: what an operation does at its accumulator depends on that accumulator alone, once
the table is built. -/
def Obligations.OperationSeesOwnStateOnly : Prop :=
  ∀ (s u : State) (op : Instr) (k : Nat) (acc : Acc),
    s.Inv → u.Inv → s.tableValid = true → u.tableValid = true → op.acc? = some k →
    s.accs[k]? = some acc → u.accs[k]? = some acc →
    ∃ s' u' acc', exec op s = .next s' ∧ exec op u = .next u' ∧
      s'.accs[k]? = some acc' ∧ u'.accs[k]? = some acc'

/-- What rule R36 derives: operations of different accumulators commute: both orders end in the same
state. -/
def Obligations.DifferentAccumulatorsCommute : Prop :=
  ∀ (s : State) (x y : Instr) (k j : Nat), x.acc? = some k → y.acc? = some j → k ≠ j →
    k < s.accs.length → j < s.accs.length →
    ∃ u v w, exec x s = .next u ∧ exec y u = .next w ∧ exec y s = .next v ∧ exec x v = .next w

/-- Rule R37: a request for an accumulator is refused, on a call and on an arrival, when another
operation of it is in progress and one of the two writes STATE. That an operation that is held counts
as in progress is read from rule R99 (log entry 7). -/
def Obligations.OverlapIsRefused : Prop :=
  ∀ (s : State) (r : Request) (rest : List Move) (op x : Instr) (k : Nat) (acc : Acc),
    decode r = .ok op → op.acc? = some k → s.accs[k]? = some acc → x ∈ acc.inProgress →
    (writesState x = true ∨ writesState op = true) →
    step (s.setAgenda (.call r :: rest)) = .refused (.overlap k) ∧
    step (s.setAgenda (.issue r :: rest)) = .refused (.overlap k)

/-- Rule R37, rule R97: a request for an accumulator at which nothing is in progress, or at which neither
it nor anything in progress writes STATE, is put in progress there, whatever goes on at the other
accumulators, which it leaves alone. -/
def Obligations.NoOverlapIsAccepted : Prop :=
  ∀ (s : State) (r : Request) (rest : List Move) (op : Instr) (k : Nat) (acc : Acc),
    decode r = .ok op → op.acc? = some k → s.accs[k]? = some acc →
    (∀ x ∈ acc.inProgress, writesState x = false ∧ writesState op = false) →
    step (s.setAgenda (.issue r :: rest)) = .next ((s.setAgenda rest).setAcc k
      { acc with inProgress := acc.inProgress ++ [op] })

/-- Rule R99, rule R107: the host may issue BUILD at any time: a BUILD word that arrives waits for the
TableBuilder, overlaps nothing, and changes nothing else. That the word is BUILD at every port is the
model's (log entry 9), and so is the count of waiting commands (log entry 4). -/
def Obligations.BuildCommandIsAccepted : Prop :=
  ∀ (s : State) (r : Request) (rest : List Move), decode r = .ok .build →
    step (s.setAgenda (.issue r :: rest)) =
      .next ((s.setAgenda rest).setPendingBuilds (s.pendingBuilds + 1))

/-- Rule R35: in a built state of the invariant, an accumulator that takes a step runs the oldest
operation in progress there, which completes and leaves the later ones waiting in their order. The
moves are the model's (log entry 5). -/
def Obligations.AgentRunsOldestOperation : Prop :=
  ∀ (s : State) (k : Nat) (acc : Acc) (op : Instr) (q : List Instr) (rest : List Move),
    s.Inv → s.tableValid = true → s.agenda = .serve (.acc k) :: rest →
    s.accs[k]? = some acc → acc.inProgress = op :: q →
    step s = exec op ((s.setAgenda rest).setAcc k { acc with inProgress := q }) ∧
    ∃ t acc', step s = .next t ∧ t.agenda = rest ∧ t.accs[k]? = some acc' ∧ acc'.inProgress = q

/-- Rule R34, rule R94: BUILD lifts a hold: the operation that waits first at an accumulator runs in the
accumulator's next step after the TableBuilder's. The moves are the model's (log entry 5). -/
def Obligations.BuildLiftsHold : Prop :=
  ∀ (s : State) (k : Nat) (acc : Acc) (op : Instr) (q : List Instr) (rest : List Move),
    s.Inv → s.tableValid = false →
    s.agenda = .serve .tableBuilder :: .serve (.acc k) :: rest →
    s.accs[k]? = some acc → acc.inProgress = op :: q →
    ∃ t u acc', step s = .next t ∧ t.tableValid = true ∧ step t = .next u ∧
      u.accs[k]? = some acc' ∧ acc'.inProgress = q ∧
      step t = exec op ((t.setAgenda rest).setAcc k { acc with inProgress := q })

/-! ### The whole machine -/

/-- The invariant of the block holds at reset (rule R20, rule R34, rule R37). -/
def Obligations.InvariantHoldsAtReset : Prop := State.reset.Inv

/-- Every step keeps the invariant: the table space stays canonical, with TABLE_VALID = 1 it is the
built table, and no two operations that conflict are in progress at one accumulator. -/
def Obligations.StepKeepsInvariant : Prop :=
  ∀ s t : State, s.Inv → step s = .next t → t.Inv

/-- Rule R12, rule R13, rule R39: once TABLE_VALID is 1, no step but a reset of the whole block clears it
or changes the table. -/
def Obligations.BuiltTableNeverChanges : Prop :=
  ∀ s t : State, s.tableValid = true → (∀ rest, s.agenda ≠ .hardReset :: rest) →
    step s = .next t → t.tableValid = true ∧ t.table = s.table

/-- Rule R14, rule R15: in a state of the invariant, a step that changes the STATE of an accumulator is
the reset of the whole block, which makes it zero, or, in a built block, a step of that accumulator
in which the operation it runs is a RESET, which makes it zero, or a WRITE, which makes it UPDATE of
the old STATE with that WRITE's own bytes and offset. -/
def Obligations.StateComesFromResetOrWrite : Prop :=
  ∀ (s t : State) (j : Nat) (a b : Acc), s.Inv → step s = .next t →
    s.accs[j]? = some a → t.accs[j]? = some b → b.crc ≠ a.crc →
    ((∃ rest, s.agenda = .hardReset :: rest) ∧ b.crc = 0) ∨
    (s.tableValid = true ∧ ∃ op, s.Runs j op ∧
      ((op = .reset j ∧ b.crc = 0) ∨
       ∃ p off, op = .write j p off ∧ b.crc = update s.table a.crc p off))

/-- The number of accumulators never changes. Rule R22 sets no number but at least 1; that no accumulator
comes into being after reset is the model's choice (log entry 3). -/
def Obligations.AccumulatorCountIsFixed : Prop :=
  ∀ s t : State, step s = .next t → t.accs.length = s.accs.length

/-- Rule R90, rule R94: no step faults, and from a state of the invariant a step is refused only where a
request arrives with a reserved word, at a port that does not exist (log entry 8), or against an
operation in progress that it must not overlap. -/
def Obligations.OnlyBadRequestsAreRefused : Prop :=
  ∀ s : State, s.Inv → (∀ e, step s ≠ .fault e) ∧
    ∀ e, step s = .refused e →
      ∃ r rest, (s.agenda = .call r :: rest ∨ s.agenda = .issue r :: rest) ∧
        ((e = .invalidWord r.word ∧ 5 < r.word.toNat) ∨
         ∃ op k, decode r = .ok op ∧ op.acc? = some k ∧
          ((e = .noSuchAcc k ∧ s.accs.length ≤ k) ∨
           (e = .overlap k ∧ ∃ acc x, s.accs[k]? = some acc ∧ x ∈ acc.inProgress ∧
             (writesState x = true ∨ writesState op = true))))

/-- Rule R34, rule R113: when the schedule is used up, the agents' own steps build the table and run
every operation that is issued or held, each in one step, until nothing is in progress or waiting. -/
def Obligations.EverythingOutstandingCompletes : Prop :=
  ∀ s : State, s.Inv → s.agenda = [] →
    ∃ n t, n ≤ s.outstanding + 1 ∧ Host.Core.run Sys2Proof.core n s = .next t ∧
      t.AtRest ∧ t.tableValid = true
end

