-- ==== Sys2Proof/Laws/State.lean ====
section
/-! SUPPORT. One lemma per field and update of State and Acc, so that no proof unfolds a record update. -/

namespace Sys2Proof.Machine

@[simp] theorem State.setTable_table (s : State) (m : Memory) :
    (s.setTable m).table = m := rfl

@[simp] theorem State.setTable_tableValid (s : State) (m : Memory) :
    (s.setTable m).tableValid = s.tableValid := rfl

@[simp] theorem State.setTable_accs (s : State) (m : Memory) :
    (s.setTable m).accs = s.accs := rfl

@[simp] theorem State.setTable_pendingBuilds (s : State) (m : Memory) :
    (s.setTable m).pendingBuilds = s.pendingBuilds := rfl

@[simp] theorem State.setTable_agenda (s : State) (m : Memory) :
    (s.setTable m).agenda = s.agenda := rfl

@[simp] theorem State.setTableValid_table (s : State) :
    (s.setTableValid).table = s.table := rfl

@[simp] theorem State.setTableValid_tableValid (s : State) :
    (s.setTableValid).tableValid = true := rfl

@[simp] theorem State.setTableValid_accs (s : State) :
    (s.setTableValid).accs = s.accs := rfl

@[simp] theorem State.setTableValid_pendingBuilds (s : State) :
    (s.setTableValid).pendingBuilds = s.pendingBuilds := rfl

@[simp] theorem State.setTableValid_agenda (s : State) :
    (s.setTableValid).agenda = s.agenda := rfl

@[simp] theorem State.setAcc_table (s : State) (k : Nat) (a : Acc) :
    (s.setAcc k a).table = s.table := rfl

@[simp] theorem State.setAcc_tableValid (s : State) (k : Nat) (a : Acc) :
    (s.setAcc k a).tableValid = s.tableValid := rfl

@[simp] theorem State.setAcc_accs (s : State) (k : Nat) (a : Acc) :
    (s.setAcc k a).accs = s.accs.set k a := rfl

@[simp] theorem State.setAcc_pendingBuilds (s : State) (k : Nat) (a : Acc) :
    (s.setAcc k a).pendingBuilds = s.pendingBuilds := rfl

@[simp] theorem State.setAcc_agenda (s : State) (k : Nat) (a : Acc) :
    (s.setAcc k a).agenda = s.agenda := rfl

@[simp] theorem State.setPendingBuilds_table (s : State) (n : Nat) :
    (s.setPendingBuilds n).table = s.table := rfl

@[simp] theorem State.setPendingBuilds_tableValid (s : State) (n : Nat) :
    (s.setPendingBuilds n).tableValid = s.tableValid := rfl

@[simp] theorem State.setPendingBuilds_accs (s : State) (n : Nat) :
    (s.setPendingBuilds n).accs = s.accs := rfl

@[simp] theorem State.setPendingBuilds_pendingBuilds (s : State) (n : Nat) :
    (s.setPendingBuilds n).pendingBuilds = n := rfl

@[simp] theorem State.setPendingBuilds_agenda (s : State) (n : Nat) :
    (s.setPendingBuilds n).agenda = s.agenda := rfl

@[simp] theorem State.setAgenda_table (s : State) (l : List Move) :
    (s.setAgenda l).table = s.table := rfl

@[simp] theorem State.setAgenda_tableValid (s : State) (l : List Move) :
    (s.setAgenda l).tableValid = s.tableValid := rfl

@[simp] theorem State.setAgenda_accs (s : State) (l : List Move) :
    (s.setAgenda l).accs = s.accs := rfl

@[simp] theorem State.setAgenda_pendingBuilds (s : State) (l : List Move) :
    (s.setAgenda l).pendingBuilds = s.pendingBuilds := rfl

@[simp] theorem State.setAgenda_agenda (s : State) (l : List Move) :
    (s.setAgenda l).agenda = l := rfl

@[simp] theorem Acc.setInProgress_crc (a : Acc) (l : List Instr) :
    (a.setInProgress l).crc = a.crc := rfl

@[simp] theorem Acc.setInProgress_inProgress (a : Acc) (l : List Instr) :
    (a.setInProgress l).inProgress = l := rfl

@[simp] theorem Acc.setInProgress_returned (a : Acc) (l : List Instr) :
    (a.setInProgress l).returned = a.returned := rfl

@[simp] theorem Acc.hold_crc (a : Acc) (op : Instr) :
    (a.hold op).crc = a.crc := rfl

@[simp] theorem Acc.hold_inProgress (a : Acc) (op : Instr) :
    (a.hold op).inProgress = op :: a.inProgress := rfl

@[simp] theorem Acc.hold_returned (a : Acc) (op : Instr) :
    (a.hold op).returned = a.returned := rfl

@[simp] theorem Acc.complete_crc (a : Acc) (c : Word) (r : List Result) :
    (a.complete c r).crc = c := rfl

@[simp] theorem Acc.complete_inProgress (a : Acc) (c : Word) (r : List Result) :
    (a.complete c r).inProgress = a.inProgress := rfl

@[simp] theorem Acc.complete_returned (a : Acc) (c : Word) (r : List Result) :
    (a.complete c r).returned = a.returned ++ r := rfl

@[simp] theorem Acc.fresh_crc : Acc.fresh.crc = 0 := rfl

@[simp] theorem Acc.fresh_inProgress : Acc.fresh.inProgress = [] := rfl

@[simp] theorem Acc.fresh_returned : Acc.fresh.returned = [] := rfl

@[simp] theorem State.ready_eq_tableValid (s : State) : s.ready = s.tableValid := rfl

@[simp] theorem State.reset_table : State.reset.table = [] := rfl

@[simp] theorem State.reset_tableValid : State.reset.tableValid = false := rfl

@[simp] theorem State.reset_accs :
    State.reset.accs = List.replicate Config.nAcc Acc.fresh := rfl

@[simp] theorem State.reset_pendingBuilds : State.reset.pendingBuilds = 0 := rfl

@[simp] theorem State.reset_agenda : State.reset.agenda = [] := rfl

theorem Config.nAcc_pos : 0 < Config.nAcc := Nat.succ_pos _

/-- Writing an accumulator twice keeps the second write. -/
@[simp] theorem State.setAcc_setAcc (s : State) (k : Nat) (a b : Acc) :
    (s.setAcc k a).setAcc k b = s.setAcc k b := by
  simp [State.setAcc]

/-- Writing back what an accumulator holds changes nothing. -/
theorem State.setAcc_self {s : State} {k : Nat} {a : Acc} (h : s.accs[k]? = some a) :
    s.setAcc k a = s := by
  obtain ⟨hk, ha⟩ := List.getElem?_eq_some_iff.mp h
  simp [State.setAcc, ← ha]

/-- Reading an accumulator after a write to it. -/
theorem State.setAcc_get_same {s : State} {k : Nat} {a : Acc} (b : Acc) (h : s.accs[k]? = some a) :
    (s.setAcc k b).accs[k]? = some b := by
  obtain ⟨hk, -⟩ := List.getElem?_eq_some_iff.mp h
  simp [hk]

/-- Reading another accumulator after a write: it is unchanged (rule R22). -/
theorem State.setAcc_get_other (s : State) {k j : Nat} (b : Acc) (h : k ≠ j) :
    (s.setAcc k b).accs[j]? = s.accs[j]? := by
  simp [List.getElem?_set_ne h]

/-- Writes to two different accumulators commute. -/
theorem State.setAcc_comm (s : State) {k j : Nat} (a b : Acc) (h : k ≠ j) :
    (s.setAcc k a).setAcc j b = (s.setAcc j b).setAcc k a := by
  simp [State.setAcc, List.set_comm _ _ h]

end Sys2Proof.Machine
end

