-- ==== Sys2Proof/Laws/Memory.lean ====
section
/-! SUPPORT. The laws of the table space: a read after a write, the canonical form, and what the built
table holds. -/

namespace Sys2Proof.Machine

/-! ### Read after write -/

theorem Memory.find?_write (m : Memory) (a b : Nat) (v : Word) :
    (m.write a v).find? b = if b = a then some v else m.find? b := by
  induction m with
  | nil => simp [Memory.write, Memory.find?]
  | cons e m ih =>
    obtain ⟨c, w⟩ := e
    simp only [Memory.write]
    split_ifs <;> simp_all [Memory.find?]

/-- A read gives the value last written at its address and leaves every other address alone. -/
theorem Memory.read_write (m : Memory) (a b : Nat) (v : Word) :
    (m.write a v).read b = if b = a then v else m.read b := by
  unfold Memory.read
  rw [Memory.find?_write]
  split_ifs <;> rfl

theorem Memory.read_write_same (m : Memory) (a : Nat) (v : Word) : (m.write a v).read a = v := by
  simp [Memory.read_write]

theorem Memory.read_write_other (m : Memory) {a b : Nat} (v : Word) (h : b ≠ a) :
    (m.write a v).read b = m.read b := by
  simp [Memory.read_write, h]

/-! ### The canonical form -/

theorem Memory.risingFrom_mono {m : Memory} {lo hi : Nat} (h : Memory.risingFrom hi m = true)
    (hle : lo ≤ hi) : Memory.risingFrom lo m = true := by
  cases m with
  | nil => rfl
  | cons e m =>
    simp only [Memory.risingFrom, Bool.and_eq_true, decide_eq_true_eq] at h ⊢
    exact ⟨by omega, h.2⟩

theorem Memory.risingFrom_write {m : Memory} {lo a : Nat} (v : Word)
    (h : Memory.risingFrom lo m = true) (hlo : lo ≤ a) :
    Memory.risingFrom lo (m.write a v) = true := by
  induction m generalizing lo with
  | nil => simp [Memory.write, Memory.risingFrom, hlo]
  | cons e m ih =>
    obtain ⟨b, w⟩ := e
    simp only [Memory.risingFrom, Bool.and_eq_true, decide_eq_true_eq] at h
    simp only [Memory.write]
    split_ifs with hab heq
    · simp [Memory.risingFrom, hlo, h.2]; omega
    · subst heq; simp [Memory.risingFrom, hlo, h.2]
    · simp [Memory.risingFrom, h.1, ih h.2 (by omega)]

theorem Memory.all_write {m : Memory} {a : Nat} {v : Word} {p : Nat × Word → Bool}
    (h : m.all p = true) (ha : p (a, v) = true) : (m.write a v).all p = true := by
  induction m with
  | nil => simp [Memory.write, ha]
  | cons e m ih =>
    obtain ⟨b, w⟩ := e
    simp only [List.all_cons, Bool.and_eq_true] at h
    simp only [Memory.write]
    split_ifs <;> simp_all

/-- A write inside the table space keeps the canonical form. -/
theorem Memory.wf_write {m : Memory} {a : Nat} (v : Word) (h : m.wf = true)
    (ha : a < Config.rows * Config.rowEntries) : (m.write a v).wf = true := by
  simp only [Memory.wf, Bool.and_eq_true] at h ⊢
  exact ⟨Memory.risingFrom_write v h.1 (Nat.zero_le a), Memory.all_write h.2 (by simpa using ha)⟩

/-- The addresses of the rows 0..7 lie in the table space (rule R26: 11 bits). -/
theorem tableAddr_lt {k : Nat} (n : Byte) (h : k < Config.rows) :
    tableAddr k n < Config.rows * Config.rowEntries := by
  have := n.isLt
  simp only [tableAddr, Config.rows, Config.rowEntries] at *
  omega

/-- Different entries have different addresses (rule R26). -/
theorem tableAddr_inj {k j : Nat} {m n : Byte} (h : tableAddr k m = tableAddr j n) :
    k = j ∧ m = n := by
  have hm := m.isLt
  have hn := n.isLt
  simp only [tableAddr, Config.rowEntries] at h
  exact ⟨by omega, BitVec.eq_of_toNat_eq (by omega)⟩

/-- An entry write keeps the canonical form. -/
theorem Memory.wf_setEntry {m : Memory} {k : Nat} (n : Byte) (v : Word) (h : m.wf = true)
    (hk : k < Config.rows) : (m.setEntry k n v).wf = true :=
  Memory.wf_write v h (tableAddr_lt n hk)

/-- One entry write of BUILD keeps the canonical form. -/
theorem Memory.wf_fillEntry {m : Memory} {k : Nat} (n : Byte) (h : m.wf = true)
    (hk : k < Config.rows) : (fillEntry m k n).wf = true := by
  cases k with
  | zero => exact Memory.wf_setEntry n _ h hk
  | succ k => exact Memory.wf_setEntry n _ h hk

theorem Memory.wf_nil : Memory.wf [] = true := rfl

set_option maxRecDepth 20000 in
/-- The built table is in canonical form. -/
theorem Memory.wf_builtTable : builtTable.wf = true := by decide

/-! ### Entries -/

/-- An entry read after an entry write. -/
theorem Memory.entry_setEntry (m : Memory) (k j : Nat) (n i : Byte) (v : Word) :
    (m.setEntry k n v).entry j i = if j = k ∧ i = n then v else m.entry j i := by
  unfold Memory.entry Memory.setEntry
  rw [Memory.read_write]
  by_cases h : tableAddr j i = tableAddr k n
  · simp [tableAddr_inj h]
  · rw [if_neg h, if_neg]
    rintro ⟨rfl, rfl⟩
    exact h rfl

theorem Memory.find?_append (l r : Memory) (a : Nat) :
    Memory.find? (l ++ r) a = (Memory.find? l a).or (Memory.find? r a) := by
  induction l with
  | nil => rfl
  | cons e l ih =>
    obtain ⟨b, v⟩ := e
    simp only [List.cons_append, Memory.find?]
    split_ifs <;> simp_all

theorem Memory.find?_eq_none {m : Memory} {a : Nat} (h : ∀ e ∈ m, e.1 ≠ a) :
    Memory.find? m a = none := by
  induction m with
  | nil => rfl
  | cons e m ih =>
    obtain ⟨b, v⟩ := e
    simp only [List.mem_cons, forall_eq_or_imp] at h
    rw [Memory.find?, if_neg (Ne.symm h.1), ih h.2]

/-- A canonical table space lists nothing beyond its 2048 entries. -/
theorem Memory.find?_beyond {m : Memory} {a : Nat} (h : m.wf = true)
    (ha : Config.rows * Config.rowEntries ≤ a) : Memory.find? m a = none := by
  simp only [Memory.wf, Bool.and_eq_true, List.all_eq_true, decide_eq_true_eq] at h
  refine Memory.find?_eq_none fun e he heq => ?_
  have := h.2 e he
  omega

/-- The built row `k` lists, at the address of (k, n), the value of rule R11. -/
theorem find?_builtRow_same (k : Nat) (n : Byte) :
    Memory.find? (builtRow k) (tableAddr k n) = some (builtEntry k n) := by
  have key : ∀ l : List Nat, n.toNat ∈ l → (∀ x ∈ l, x < 256) →
      Memory.find? (l.map fun x => (tableAddr k (BitVec.ofNat 8 x), builtEntry k (BitVec.ofNat 8 x)))
        (tableAddr k n) = some (builtEntry k n) := by
    intro l
    induction l with
    | nil => simp
    | cons x l ih =>
      intro hn hl
      simp only [List.map_cons, Memory.find?]
      split_ifs with h
      · rw [(tableAddr_inj h).2]
      · refine ih ((List.mem_cons.mp hn).resolve_left fun hx => h ?_) fun y hy => hl y (by simp [hy])
        rw [← hx, BitVec.ofNat_toNat, BitVec.setWidth_eq]
  exact key _ (List.mem_range.mpr n.isLt) fun x hx => List.mem_range.mp hx

/-- The built row `j` lists no address of another row. -/
theorem find?_builtRow_other {k j : Nat} (n : Byte) (h : j ≠ k) :
    Memory.find? (builtRow j) (tableAddr k n) = none := by
  apply Memory.find?_eq_none
  intro e he heq
  simp only [builtRow, List.mem_map] at he
  obtain ⟨x, -, rfl⟩ := he
  exact h (tableAddr_inj heq).1

/-- The built table lists every entry of the rows 0..7, with the value of rule R11. -/
theorem Memory.find?_builtTable {k : Nat} (n : Byte) (hk : k < Config.rows) :
    Memory.find? builtTable (tableAddr k n) = some (builtEntry k n) := by
  have key : ∀ l : List Nat, k ∈ l →
      Memory.find? (l.flatMap builtRow) (tableAddr k n) = some (builtEntry k n) := by
    intro l
    induction l with
    | nil => simp
    | cons j l ih =>
      intro hm
      rw [List.flatMap_cons, Memory.find?_append]
      by_cases hj : j = k
      · subst hj; simp [find?_builtRow_same]
      · rw [find?_builtRow_other n hj, Option.none_or]
        exact ih ((List.mem_cons.mp hm).resolve_left (Ne.symm hj))
  exact key _ (List.mem_range.mpr hk)

/-- Every entry of the built table reads as the value of rule R11. -/
theorem Memory.entry_builtTable {k : Nat} (n : Byte) (hk : k < Config.rows) :
    builtTable.entry k n = builtEntry k n := by
  simp [Memory.entry, Memory.read, Memory.find?_builtTable n hk]

end Sys2Proof.Machine
end

