-- ==== Sys2Proof/Laws/Ops.lean ====
section
/-! SUPPORT. What each shared operation can do, said once: the accumulator operation, the meanings,
and the invariants they keep. -/

namespace Sys2Proof.Machine

/-! ### The shared accumulator operation -/

theorem accumulatorOp_ready {s : State} {k : Nat} {a : Acc} (op : Instr) (f : Word → Word)
    (g : Word → List Result) (hv : s.tableValid = true) (ha : s.accs[k]? = some a) :
    accumulatorOp k op f g s = .next (s.setAcc k (a.complete (f a.crc) (g a.crc))) := by
  simp [accumulatorOp, ha, hv]

theorem accumulatorOp_held {s : State} {k : Nat} {a : Acc} (op : Instr) (f : Word → Word)
    (g : Word → List Result) (hv : s.tableValid = false) (ha : s.accs[k]? = some a) :
    accumulatorOp k op f g s = .next (s.setAcc k (a.hold op)) := by
  simp [accumulatorOp, ha, hv]

/-- If an accumulator operation answers a next state, it has either run or is held. -/
theorem accumulatorOp_next {s t : State} {k : Nat} {op : Instr} {f : Word → Word}
    {g : Word → List Result} (h : accumulatorOp k op f g s = .next t) :
    ∃ a, s.accs[k]? = some a ∧
      ((s.tableValid = true ∧ t = s.setAcc k (a.complete (f a.crc) (g a.crc))) ∨
       (s.tableValid = false ∧ t = s.setAcc k (a.hold op))) := by
  unfold accumulatorOp at h
  split at h
  · cases h
  · rename_i a ha
    refine ⟨a, ha, ?_⟩
    cases hv : s.tableValid <;> simp_all

/-! ### The meanings -/

/-- The STATE that an operation leaves at its accumulator. -/
def newCrc (op : Instr) (m : Memory) (crc : Word) : Word :=
  match op with
  | .write _ p a => update m crc p a
  | .reset _ => 0
  | _ => crc

/-- The result that an operation hands over. -/
def resultOf (op : Instr) (crc : Word) : List Result :=
  match op with
  | .build => []
  | .write _ p _ => [.count p.length]
  | .sum _ pre => [.bytes (pre ++ be8 crc)]
  | .reset _ => []
  | .size _ => [.constant Config.size]
  | .blockSize _ => [.constant Config.blockSize]

/-- Every accumulator operation is the shared operation with its own new STATE and result. -/
theorem exec_of_acc {op : Instr} {k : Nat} (h : op.acc? = some k) (s : State) :
    exec op s = accumulatorOp k op (newCrc op s.table) (resultOf op) s := by
  cases op <;> simp only [Instr.acc?, Option.some.injEq, reduceCtorEq] at h <;> subst h <;> rfl

theorem exec_ready {s : State} {op : Instr} {k : Nat} {a : Acc} (h : op.acc? = some k)
    (hv : s.tableValid = true) (ha : s.accs[k]? = some a) :
    exec op s = .next (s.setAcc k (a.complete (newCrc op s.table a.crc) (resultOf op a.crc))) := by
  rw [exec_of_acc h, accumulatorOp_ready _ _ _ hv ha]

theorem exec_held {s : State} {op : Instr} {k : Nat} {a : Acc} (h : op.acc? = some k)
    (hv : s.tableValid = false) (ha : s.accs[k]? = some a) :
    exec op s = .next (s.setAcc k (a.hold op)) := by
  rw [exec_of_acc h, accumulatorOp_held _ _ _ hv ha]

theorem exec_build_valid {s : State} (hv : s.tableValid = true) : exec .build s = .next s := by
  simp [exec, execBuild, hv]

theorem exec_build_unbuilt {s : State} (hv : s.tableValid = false) :
    exec .build s = .next (s.setTable builtTable).setTableValid := by
  simp [exec, execBuild, hv]

/-- If `exec` answers a next state, one of these four things has happened. -/
theorem exec_next {op : Instr} {s t : State} (h : exec op s = .next t) :
    (op = .build ∧ s.tableValid = true ∧ t = s) ∨
    (op = .build ∧ s.tableValid = false ∧ t = (s.setTable builtTable).setTableValid) ∨
    (∃ k a, op.acc? = some k ∧ s.accs[k]? = some a ∧ s.tableValid = true ∧
      t = s.setAcc k (a.complete (newCrc op s.table a.crc) (resultOf op a.crc))) ∨
    (∃ k a, op.acc? = some k ∧ s.accs[k]? = some a ∧ s.tableValid = false ∧
      t = s.setAcc k (a.hold op)) := by
  cases hop : op.acc? with
  | none =>
    cases op <;> simp only [Instr.acc?, reduceCtorEq] at hop
    cases hv : s.tableValid
    · rw [exec_build_unbuilt hv] at h; cases h; simp
    · rw [exec_build_valid hv] at h; cases h; simp
  | some k =>
    rw [exec_of_acc hop] at h
    obtain ⟨a, ha, ⟨hv, rfl⟩ | ⟨hv, rfl⟩⟩ := accumulatorOp_next h
    · exact .inr (.inr (.inl ⟨k, a, rfl, ha, hv, rfl⟩))
    · exact .inr (.inr (.inr ⟨k, a, rfl, ha, hv, rfl⟩))

/-- `exec` goes on for every operation of an accumulator that exists, and for BUILD. -/
theorem exec_continues {op : Instr} {s : State}
    (h : ∀ k, op.acc? = some k → k < s.accs.length) : Continues (exec op s) := by
  cases hop : op.acc? with
  | none =>
    cases op <;> simp only [Instr.acc?, reduceCtorEq] at hop
    cases hv : s.tableValid
    · exact ⟨_, exec_build_unbuilt hv⟩
    · exact ⟨_, exec_build_valid hv⟩
  | some k =>
    have ha := List.getElem?_eq_getElem (h k hop)
    cases hv : s.tableValid
    · exact ⟨_, exec_held hop hv ha⟩
    · exact ⟨_, exec_ready hop hv ha⟩

/-- `exec` never answers a fault: the block has none (rule R90). -/
theorem exec_ne_fault (op : Instr) (s : State) (e : Fault) : exec op s ≠ .fault e := nomatch e

/-- A held operation leaves the block the same (rule R94). -/
theorem sameBlock_hold {s : State} {k : Nat} {a : Acc} (op : Instr) (ha : s.accs[k]? = some a) :
    (s.setAcc k (a.hold op)).SameBlock s := by
  refine ⟨rfl, rfl, List.ext_getElem? fun i => ?_⟩
  simp only [List.getElem?_map]
  by_cases hi : k = i
  · subst hi; rw [State.setAcc_get_same _ ha, ha]; rfl
  · rw [State.setAcc_get_other _ _ hi]

end Sys2Proof.Machine
end

