-- ==== Sys2Proof/Laws/Ports.lean ====
section
/-! SUPPORT. What the command ports, the moves and a step can do, said once. -/

namespace Sys2Proof.Machine

theorem home_eq_tableBuilder {op : Instr} (h : op.acc? = none) : home op = .tableBuilder := by
  simp [home, h]

theorem home_eq_acc {op : Instr} {k : Nat} (h : op.acc? = some k) : home op = .acc k := by
  simp [home, h]

/-- If an operation enters, it is a BUILD command that now waits, or it stands last at its
accumulator and conflicts with nothing there. -/
theorem enter_next {op : Instr} {s t : State} (h : enter op s = .next t) :
    (op.acc? = none ∧ t = s.setPendingBuilds (s.pendingBuilds + 1)) ∨
    (∃ k a, op.acc? = some k ∧ s.accs[k]? = some a ∧ a.inProgress.any (conflict op) = false ∧
      t = s.setAcc k (a.setInProgress (a.inProgress ++ [op]))) := by
  unfold enter at h
  split at h
  · rename_i hop; cases h; exact .inl ⟨hop, rfl⟩
  · rename_i k hop
    split at h
    · cases h
    · rename_i a ha
      split at h
      · cases h
      · rename_i hc
        cases h
        exact .inr ⟨k, a, hop, ha, by simpa using hc, rfl⟩

/-- Why an operation is refused where it enters. -/
theorem enter_refused {op : Instr} {s : State} {e : Refusal} (h : enter op s = .refused e) :
    ∃ k, op.acc? = some k ∧
      ((s.accs[k]? = none ∧ e = .noSuchAcc k) ∨
       (∃ a, s.accs[k]? = some a ∧ a.inProgress.any (conflict op) = true ∧ e = .overlap k)) := by
  unfold enter at h
  split at h
  · cases h
  · rename_i k hop
    refine ⟨k, hop, ?_⟩
    split at h
    · rename_i ha; cases h; exact .inl ⟨ha, rfl⟩
    · rename_i a ha
      split at h
      · rename_i hc; cases h; exact .inr ⟨a, ha, hc, rfl⟩
      · cases h

theorem serve_tableBuilder (s : State) :
    serve .tableBuilder s = exec .build (s.setPendingBuilds (s.pendingBuilds - 1)) := rfl

theorem serve_acc_cons {s : State} {k : Nat} {a : Acc} {op : Instr} {rest : List Instr}
    (ha : s.accs[k]? = some a) (hq : a.inProgress = op :: rest) :
    serve (.acc k) s = exec op (s.setAcc k (a.setInProgress rest)) := by
  simp [serve, ha, hq]

theorem serve_acc_idle {s : State} {k : Nat}
    (h : ∀ a, s.accs[k]? = some a → a.inProgress = []) : serve (.acc k) s = .next s := by
  cases ha : s.accs[k]? with
  | none => simp [serve, ha]
  | some a => simp [serve, ha, h a ha]

/-- What an agent's step is: BUILD, nothing, or the oldest operation of an accumulator. -/
theorem serve_cases (g : Agent) (s : State) :
    (g = .tableBuilder ∧ serve g s = exec .build (s.setPendingBuilds (s.pendingBuilds - 1))) ∨
    serve g s = .next s ∨
    (∃ k a op rest, g = .acc k ∧ s.accs[k]? = some a ∧ a.inProgress = op :: rest ∧
      serve g s = exec op (s.setAcc k (a.setInProgress rest))) := by
  cases g with
  | tableBuilder => exact .inl ⟨rfl, rfl⟩
  | acc k =>
    right
    cases ha : s.accs[k]? with
    | none => left; simp [serve, ha]
    | some a =>
      cases hq : a.inProgress with
      | nil => left; simp [serve, ha, hq]
      | cons op rest => right; exact ⟨k, a, op, rest, rfl, ha, hq, serve_acc_cons ha hq⟩

/-- If a call answers a next state, its operation has entered and its agent has taken a step. -/
theorem call_next {r : Request} {s t : State} (h : call r s = .next t) :
    ∃ op u, decode r = .ok op ∧ enter op s = .next u ∧ serve (home op) u = .next t := by
  unfold call at h
  split at h
  · cases h
  · rename_i op hd
    split at h
    · rename_i u hu; exact ⟨op, u, hd, hu, h⟩
    · rename_i ho; exact absurd h (ho t)

/-- If an arrival answers a next state, its operation has entered. -/
theorem arrive_next {r : Request} {s t : State} (h : arrive r s = .next t) :
    ∃ op, decode r = .ok op ∧ enter op s = .next t := by
  unfold arrive at h
  split at h
  · cases h
  · rename_i op hd; exact ⟨op, hd, h⟩

/-- If a step answers a next state, it is one of the four moves or the agents' own step. -/
theorem step_next {s t : State} (h : step s = .next t) :
    (s.agenda = [] ∧ settle s = .next t) ∨
    (∃ r rest, s.agenda = .call r :: rest ∧ call r (s.setAgenda rest) = .next t) ∨
    (∃ r rest, s.agenda = .issue r :: rest ∧ arrive r (s.setAgenda rest) = .next t) ∨
    (∃ g rest, s.agenda = .serve g :: rest ∧ serve g (s.setAgenda rest) = .next t) ∨
    (∃ rest, s.agenda = .hardReset :: rest ∧ t = hardReset (s.setAgenda rest)) := by
  unfold step at h
  split at h
  · rename_i ha; exact .inl ⟨ha, h⟩
  · rename_i v rest ha
    cases v with
    | call r => exact .inr (.inl ⟨r, rest, ha, h⟩)
    | issue r => exact .inr (.inr (.inl ⟨r, rest, ha, h⟩))
    | serve g => exact .inr (.inr (.inr (.inl ⟨g, rest, ha, h⟩)))
    | hardReset => cases h; exact .inr (.inr (.inr (.inr ⟨rest, ha, rfl⟩)))

/-- If the agents' own step answers a next state, nobody had anything to do or one agent moved. -/
theorem settle_next {s t : State} (h : settle s = .next t) :
    (nextAgent s = none ∧ t = s) ∨ (∃ g, nextAgent s = some g ∧ serve g s = .next t) := by
  unfold settle at h
  split at h
  · rename_i hn; cases h; exact .inl ⟨hn, rfl⟩
  · rename_i g hg; exact .inr ⟨g, hg, h⟩

/-- `firstBusy` finds an accumulator with an operation in progress. -/
theorem firstBusy_some {l : List Acc} {j k : Nat} (h : firstBusy j l = some k) :
    ∃ i a, k = j + i ∧ l[i]? = some a ∧ a.inProgress ≠ [] := by
  induction l generalizing j with
  | nil => simp [firstBusy] at h
  | cons b l ih =>
    unfold firstBusy at h
    split at h
    · obtain ⟨i, a, rfl, hi, ha⟩ := ih h
      exact ⟨i + 1, a, by omega, by simpa using hi, ha⟩
    · rename_i hb
      cases h
      exact ⟨0, b, by simp, by simp, by simpa using hb⟩

/-- `firstBusy` finds nobody exactly when nothing is in progress anywhere. -/
theorem firstBusy_eq_none {l : List Acc} {j : Nat} :
    firstBusy j l = none ↔ ∀ a ∈ l, a.inProgress = [] := by
  induction l generalizing j with
  | nil => simp [firstBusy]
  | cons b l ih =>
    unfold firstBusy
    split <;> rename_i hb
    · simp_all
    · simp only [reduceCtorEq, List.mem_cons, forall_eq_or_imp, false_iff, not_and]
      intro h; simp [h] at hb

/-! ### The operation that a step runs -/

theorem runs_call {s : State} {j : Nat} {a : Acc} {op : Instr} {r : Request} {rest : List Move}
    (hs : s.agenda = .call r :: rest) (ha : s.accs[j]? = some a) :
    s.Runs j op ↔
      ∃ x, decode r = .ok x ∧ x.acc? = some j ∧ (a.inProgress ++ [x]).head? = some op := by
  simp [State.Runs, hs, ha]

theorem runs_serve {s : State} {j : Nat} {a : Acc} {op : Instr} {g : Agent} {rest : List Move}
    (hs : s.agenda = .serve g :: rest) (ha : s.accs[j]? = some a) :
    s.Runs j op ↔ g = .acc j ∧ a.inProgress.head? = some op := by
  simp [State.Runs, hs, ha]

theorem runs_settle {s : State} {j : Nat} {a : Acc} {op : Instr}
    (hs : s.agenda = []) (ha : s.accs[j]? = some a) :
    s.Runs j op ↔ nextAgent s = some (.acc j) ∧ a.inProgress.head? = some op := by
  simp [State.Runs, hs, ha]

end Sys2Proof.Machine
end

