-- ==== Sys2Proof/Laws/PerInstr.lean ====
section
/-! SUPPORT. What holds of every operation as syntax: its command word is one of the six of rule R43,
and its request addresses the accumulator that well-formedness checks (rule R42). -/

namespace Sys2Proof.Laws.OneWord

/-- The command word has no reserved bit set and an `op` of 0 to 5, and the operation is well-formed in a
block of `n` accumulators exactly when the port its request goes to is one of the block's, or it is
the TableBuilder's. -/
def Statement (i : Instr) : Prop :=
  rsvField (encodeWord i) = 0 ∧ (opField (encodeWord i)).toNat ≤ 5 ∧
    ∀ n, WellFormed n i = true ↔ (i.acc? = none ∨ (encode i).port < n)

theorem build : Statement .build := by
  refine ⟨by simp [encodeWord, rsvField], by simp [encodeWord, opField], fun n => ?_⟩
  simp [WellFormed, Instr.acc?]

theorem write (k : Nat) (p : List Byte) (a : Fin 8) : Statement (.write k p a) := by
  refine ⟨by simp [encodeWord, rsvField], by simp [encodeWord, opField], fun n => ?_⟩
  simp [WellFormed, Instr.acc?, encode]

theorem sum (k : Nat) (pre : List Byte) : Statement (.sum k pre) := by
  refine ⟨by simp [encodeWord, rsvField], by simp [encodeWord, opField], fun n => ?_⟩
  simp [WellFormed, Instr.acc?, encode]

theorem reset (k : Nat) : Statement (.reset k) := by
  refine ⟨by simp [encodeWord, rsvField], by simp [encodeWord, opField], fun n => ?_⟩
  simp [WellFormed, Instr.acc?, encode]

theorem size (k : Nat) : Statement (.size k) := by
  refine ⟨by simp [encodeWord, rsvField], by simp [encodeWord, opField], fun n => ?_⟩
  simp [WellFormed, Instr.acc?, encode]

theorem blockSize (k : Nat) : Statement (.blockSize k) := by
  refine ⟨by simp [encodeWord, rsvField], by simp [encodeWord, opField], fun n => ?_⟩
  simp [WellFormed, Instr.acc?, encode]

end Sys2Proof.Laws.OneWord
end

