-- ==== Sys2Proof/Laws/Run.lean ====
section
/-! SUPPORT. How a run of several steps unfolds into one step and the rest. -/

namespace Sys2Proof.Machine

theorem run_succ_of_next (M : Host.Core) (n : Nat) (s t : M.State) (h : M.step s = .next t) :
    M.run (n + 1) s = M.run n t := by
  rw [Host.Core.run]
  simp only [h]

theorem run_zero (s : State) :
    (Host.Core.run Sys2Proof.core 0 s : Host.Outcome State Fault Refusal) = .next s := rfl

/-- A run of `n + 1` steps whose first step answers a next state is the run of `n` steps from there. -/
theorem run_succ {n : Nat} {s t : State} (h : step s = .next t) :
    (Host.Core.run Sys2Proof.core (n + 1) s : Host.Outcome State Fault Refusal) =
      Host.Core.run Sys2Proof.core n t :=
  run_succ_of_next Sys2Proof.core n s t h

end Sys2Proof.Machine
end

