-- ==== Sys2Proof/Tests/Slice0.lean ====
section
/-! SUPPORT. Tests against the vectors of 95_test_vectors.md (named V<n>, P<n> there), the smoke test of
WellFormed, and for every statement with hypotheses a state and operands that meet them all. -/

set_option maxRecDepth 20000

namespace Sys2Proof.Tests

open Sys2Proof Sys2Proof.Machine

/-! ### Small states -/

/-- An accumulator with a given STATE, nothing in progress, nothing returned. -/
def accWith (c : Word) : Acc := { crc := c, inProgress := [], returned := [] }

/-- Two accumulators with the table built; accumulator 0 has the given STATE. -/
def built (c : Word) : State :=
  { table := builtTable, tableValid := true, accs := [accWith c, accWith 0], pendingBuilds := 0,
    agenda := [] }

/-- Two fresh accumulators before BUILD. -/
def unbuilt : State :=
  { table := [], tableValid := false, accs := [Acc.fresh, Acc.fresh], pendingBuilds := 0, agenda := [] }

/-- The table built, and operations in progress at accumulator 0. -/
def busy (l : List Instr) : State :=
  { table := builtTable, tableValid := true, accs := [{ accWith 0 with inProgress := l }, accWith 0],
    pendingBuilds := 0, agenda := [] }

/-- An operation held at accumulator 1 before BUILD. -/
def holding (op : Instr) : State :=
  { table := [], tableValid := false, accs := [accWith 0, { accWith 0 with inProgress := [op] }],
    pendingBuilds := 0, agenda := [] }

/-- STATE[k] in the next state. -/
def crcAfter (k : Nat) (o : Host.Outcome State Fault Refusal) : Option Word :=
  match o with
  | .next t => t.accs[k]?.map (·.crc)
  | _ => none

/-- The results returned at accumulator k in the next state. -/
def returnedAfter (k : Nat) (o : Host.Outcome State Fault Refusal) : Option (List Result) :=
  match o with
  | .next t => t.accs[k]?.map (·.returned)
  | _ => none

/-- What is in progress at accumulator k in the next state. -/
def inProgressAfter (k : Nat) (o : Host.Outcome State Fault Refusal) : Option (List Instr) :=
  match o with
  | .next t => t.accs[k]?.map (·.inProgress)
  | _ => none

/-- The refusal of an outcome. -/
def refusalOf (o : Host.Outcome State Fault Refusal) : Option Refusal :=
  match o with
  | .refused r => some r
  | _ => none

/-- The bytes of "123456789". -/
def digits : List Byte := [0x31, 0x32, 0x33, 0x34, 0x35, 0x36, 0x37, 0x38, 0x39]

/-! ### WellFormed: the smoke test (rule R22) -/

theorem test_wf_accepts_the_last_accumulator :
    WellFormed 2 (.write 1 [0x61] 7) = true ∧ WellFormed 1 .build = true := by decide

theorem test_wf_refuses_a_missing_accumulator :
    WellFormed 2 (.write 2 [0x61] 0) = false ∧ WellFormed 1 (.sum 1 []) = false ∧
    WellFormed 1 (.reset 7) = false ∧ WellFormed 3 (.size 3) = false ∧
    WellFormed 0 (.blockSize 0) = false := by decide

/-! ### Command words, bit by bit (rule R42, rule R43, rule R46; V58 to V60) -/

theorem test_decode_build : decode ⟨0, 0b00000000, [], 0⟩ = .ok .build := by decide

theorem test_decode_write :
    decode ⟨1, 0b00000001, [0x61, 0x62], 5⟩ = .ok (.write 1 [0x61, 0x62] 5) := by decide

theorem test_decode_sum : decode ⟨2, 0b00000010, [0xAA], 3⟩ = .ok (.sum 2 [0xAA]) := by decide

theorem test_decode_reset : decode ⟨0, 0b00000011, [0x01], 1⟩ = .ok (.reset 0) := by decide

theorem test_decode_size : decode ⟨4, 0b00000100, [], 0⟩ = .ok (.size 4) := by decide

theorem test_decode_blockSize : decode ⟨0, 0b00000101, [], 0⟩ = .ok (.blockSize 0) := by decide

theorem test_decode_reserved_op :
    decode ⟨0, 0b00000110, [], 0⟩ = .error .reservedOp ∧
    decode ⟨0, 0b00000111, [], 0⟩ = .error .reservedOp := by decide

/-- V60: 0x09 is not WRITE. -/
theorem test_decode_reserved_bits :
    decode ⟨0, 0b00001000, [], 0⟩ = .error .reservedBits ∧
    decode ⟨0, 0b00001001, [0x61], 0⟩ = .error .reservedBits ∧
    decode ⟨0, 0b10000001, [], 0⟩ = .error .reservedBits ∧
    decode ⟨0, 0b11111111, [], 0⟩ = .error .reservedBits := by decide

theorem test_encode_words :
    [Instr.build, .write 0 [] 0, .sum 0 [], .reset 0, .size 0, .blockSize 0].map encodeWord =
      [0x00, 0x01, 0x02, 0x03, 0x04, 0x05] := by decide

theorem test_decodeTableWord :
    decodeTableWord 8 1 = some (.write 0 [] 0) ∧ decodeTableWord 8 6 = none ∧
    decodeTableWord 8 0x81 = none := by decide

/-! ### BITSTEP, ROW0 and the table (V1 to V18) -/

/-- V1 to V7. -/
theorem test_bitStep :
    [(0 : Word), 1, 2, 3, 0xFFFFFFFFFFFFFFFF, 0x8000000000000000, 0x100].map bitStep =
      [0, 0xD800000000000000, 1, 0xD800000000000001, 0xA7FFFFFFFFFFFFFF, 0x4000000000000000,
       0x80] := by decide

/-- V10: the eight rounds of ROW0(0xFF). -/
theorem test_row0_rounds :
    [1, 2, 3, 4, 5, 6, 7, 8].map (fun k => bitSteps k 0xFF) =
      [0xD80000000000007F, 0xB40000000000003F, 0x820000000000001F, 0x990000000000000F,
       0x9480000000000007, 0x9240000000000003, 0x9120000000000001, 0x9090000000000000] := by decide

/-- V13. -/
theorem test_row0_entries :
    [(0x10 : Byte), 0x55, 0x7F, 0xAA, 0xB5].map (builtTable.entry 0) =
      [0x1B00000000000000, 0x7070000000000000, 0x4890000000000000, 0xE0E0000000000000,
       0xF270000000000000] := by decide

/-- V14, n = 0xFF: the column from row 0 to row 7. -/
theorem test_column_FF :
    [0, 1, 2, 3, 4, 5, 6, 7].map (fun k => builtTable.entry k 0xFF) =
      [0x9090000000000000, 0x0090900000000000, 0x0000909000000000, 0x0000009090000000,
       0x0000000090900000, 0x0000000000909000, 0x0000000000009090, 0xC300000000000090] := by decide

/-- V15. -/
theorem test_row7_entries :
    [(0 : Byte), 1, 2, 3, 4, 5, 6, 7].map (builtTable.entry 7) =
      [0, 0xF500000000000001, 0x5A00000000000003, 0xAF00000000000002, 0xB400000000000006,
       0x4100000000000007, 0xEE00000000000005, 0x1B00000000000004] := by decide

/-- V18: the sum of row 7 modulo 2^64. -/
theorem test_row7_sum :
    (builtRow 7).foldl (fun (v : Word) (e : Nat × Word) => v + e.2) 0 = 0x8000000000007F80 := by
  decide

/-! ### Byte order (V28, V29, V29c) -/

theorem test_le64 : le64 0x31 0x32 0x33 0x34 0x35 0x36 0x37 0x38 = 0x3837363534333231 := by decide

theorem test_be8 : be8 0x46A5A9388A5BEFFE = [0x46, 0xA5, 0xA9, 0x38, 0x8A, 0x5B, 0xEF, 0xFE] := by
  decide

/-! ### The engine (V22 to V27, V51, V54, V56, V41, V44) -/

/-- V23 to V27. -/
theorem test_byteStep :
    byteStep builtTable 0xFFFFFFFFFFFFFFFF 0x00 = 0x906FFFFFFFFFFFFF ∧
    byteStep builtTable 0xFFFFFFFFFFFFFFFF 0xFF = 0x00FFFFFFFFFFFFFF ∧
    byteStep builtTable 0x0123456789ABCDEF 0x5A = 0xF27123456789ABCD ∧
    byteStep builtTable 0x46A5A9388A5BEFFE 0x00 = 0x9166A5A9388A5BEF ∧
    byteStep builtTable 1 1 = 0 := by decide

/-- V51; V57: the two misreadings of rule R62 give 0xF49E4FFBEA588930. -/
theorem test_slice8_digits :
    slice8 builtTable 0 0x31 0x32 0x33 0x34 0x35 0x36 0x37 0x38 = 0xD5A9388A5BEFFE4C := by decide

/-- V54. -/
theorem test_slice8_nonzero_state :
    slice8 builtTable 0x0123456789ABCDEF 0xF0 0xF1 0xF2 0xF3 0xF4 0xF5 0xF6 0xF7 =
      0x5F0885C19F9B1652 := by decide

/-- V56, V56b: the last byte goes to row 0 and the first to row 7. -/
theorem test_slice8_lanes :
    slice8 builtTable 0 0 0 0 0 0 0 0 1 = 0x01B0000000000000 ∧
    slice8 builtTable 0 1 0 0 0 0 0 0 0 = 0xF500000000000001 := by decide

/-- V44, a = 7: phase 1 takes 1 byte, one round ends at cur = 9, phase 3 takes 7 bytes. -/
theorem test_phases :
    let p : List Byte := [0x30, 0x31, 0x32, 0x33, 0x34, 0x35, 0x36, 0x37, 0x38, 0x39, 0x61, 0x62,
      0x63, 0x64, 0x65, 0x66]
    ((afterPhase1 builtTable 0 p 7).cur, (afterPhase1 builtTable 0 p 7).s) =
      (1, 0x2D00000000000000) ∧
    ((afterPhase2 builtTable 0 p 7).cur, (afterPhase2 builtTable 0 p 7).s) =
      (9, 0xE959388A5BEFFE4C) ∧
    ((afterPhase3 builtTable 0 p 7).cur, (afterPhase3 builtTable 0 p 7).s) =
      (16, 0x24ED7A00523AD699) := by decide

/-! ### The operations, one step each -/

/-- P1 step 1: BUILD from reset sets TABLE_VALID and stores the table. -/
theorem test_build_from_reset :
    (match step State.reset with
     | .next t => t.tableValid && t.table.entry 3 0x80 == 0x000000D800000000
     | _ => false) = true := by decide

/-- V19: a second BUILD leaves the state as it is. -/
theorem test_build_twice : exec .build (built 5) = .next (built 5) := rfl

/-- V30: the known answer of "123456789", with the count 9. -/
theorem test_write_digits :
    crcAfter 0 (exec (.write 0 digits 0) (built 0)) = some 0x46A5A9388A5BEFFE ∧
    returnedAfter 0 (exec (.write 0 digits 0) (built 0)) = some [.count 9] := by decide

/-- V46, V47: the state's bytes least significant first clear it; its SUM bytes do not. -/
theorem test_write_byte_orders :
    crcAfter 0 (exec (.write 0 [0xFE, 0xEF, 0x5B, 0x8A, 0x38, 0xA9, 0xA5, 0x46] 0)
      (built 0x46A5A9388A5BEFFE)) = some 0 ∧
    crcAfter 0 (exec (.write 0 [0x46, 0xA5, 0xA9, 0x38, 0x8A, 0x5B, 0xEF, 0xFE] 0)
      (built 0x46A5A9388A5BEFFE)) = some 0x20E27A9696FA0218 := by decide

/-- V49: the result is the prefix and the state, and STATE stays. -/
theorem test_sum :
    returnedAfter 0 (exec (.sum 0 [0xDE, 0xAD]) (built 0x0123456789ABCDEF)) =
      some [.bytes [0xDE, 0xAD, 0x01, 0x23, 0x45, 0x67, 0x89, 0xAB, 0xCD, 0xEF]] ∧
    crcAfter 0 (exec (.sum 0 [0xDE, 0xAD]) (built 0x0123456789ABCDEF)) =
      some 0x0123456789ABCDEF := by decide

/-- P4 step 6: RESET of accumulator 0 leaves accumulator 1. -/
theorem test_reset :
    crcAfter 0 (exec (.reset 0) (built 0x58893BB000000000)) = some 0 ∧
    returnedAfter 0 (exec (.reset 0) (built 0x58893BB000000000)) = some [] ∧
    crcAfter 0 (exec (.reset 1) (built 0x58893BB000000000)) = some 0x58893BB000000000 := by decide

theorem test_size : returnedAfter 1 (exec (.size 1) (built 0)) = some [.constant 8] := by decide

theorem test_blockSize :
    returnedAfter 1 (exec (.blockSize 1) (built 0)) = some [.constant 8] := by decide

/-- V61, V62: before BUILD an operation holds; STATE stays and nothing is returned. -/
theorem test_hold :
    crcAfter 1 (exec (.write 1 [0x61] 0) unbuilt) = some 0 ∧
    returnedAfter 1 (exec (.write 1 [0x61] 0) unbuilt) = some [] ∧
    inProgressAfter 1 (exec (.write 1 [0x61] 0) unbuilt) = some [.write 1 [0x61] 0] ∧
    returnedAfter 0 (exec (.size 0) unbuilt) = some [] := by decide

/-- P4 step 3: the held WRITE "a" runs at accumulator 1 once the table is built. -/
theorem test_held_operation_runs :
    crcAfter 1 (serve (.acc 1) ((holding (.write 1 [0x61] 0)).setTable builtTable).setTableValid) =
      some 0x5BB0000000000000 ∧
    inProgressAfter 1
      (serve (.acc 1) ((holding (.write 1 [0x61] 0)).setTable builtTable).setTableValid) =
        some [] := by decide

/-- V63: a WRITE, RESET or SUM against a WRITE in progress at the same accumulator is refused. -/
theorem test_overlap :
    refusalOf (call ⟨0, 0x01, [0x61], 0⟩ (busy [.write 0 [0x62] 0])) = some (.overlap 0) ∧
    refusalOf (call ⟨0, 0x03, [], 0⟩ (busy [.write 0 [0x62] 0])) = some (.overlap 0) ∧
    refusalOf (arrive ⟨0, 0x02, [], 0⟩ (busy [.write 0 [0x62] 0])) = some (.overlap 0) := by decide

/-- V64: a WRITE of accumulator 1 runs while a WRITE of accumulator 0 is in progress. -/
theorem test_no_overlap_elsewhere :
    crcAfter 1 (call ⟨1, 0x01, [0x61], 0⟩ (busy [.write 0 [0x62] 0])) =
      some 0x5BB0000000000000 := by decide

/-- V59: a reserved word is refused by a call. -/
theorem test_reserved_word_is_refused :
    refusalOf (step ((built 0).setAgenda [.call ⟨0, 0x06, [], 0⟩])) = some (.invalidWord 0x06) := by
  decide

/-- The placed word of the host's probe runs in the next step, from reset. -/
theorem test_withFetchWord_from_reset :
    returnedAfter 0 (step (State.reset.withFetchWord 8 0x04)) = some [.constant 8] ∧
    returnedAfter 0 (step (State.reset.withFetchWord 8 0x02)) =
      some [.bytes [0, 0, 0, 0, 0, 0, 0, 0]] := by decide

/-! ### The invariant of the small states -/

theorem queueInv_nil (k : Nat) (c : Word) : (accWith c).QueueInv k := by
  simp [Acc.QueueInv, accWith]

theorem portsInv_two {s : State} {a b : Acc} (h : s.accs = [a, b]) (ha : a.QueueInv 0)
    (hb : b.QueueInv 1) : s.PortsInv := by
  refine ⟨by simp [h], fun k c hc => ?_⟩
  rw [h] at hc
  match k, hc with
  | 0, hc => cases hc; exact ha
  | 1, hc => cases hc; exact hb

theorem built_inv (c : Word) : (built c).Inv :=
  ⟨⟨Memory.wf_builtTable, fun _ => rfl⟩, portsInv_two rfl (queueInv_nil 0 c) (queueInv_nil 1 0)⟩

theorem busy_inv {p : List Byte} : (busy [.write 0 p 0]).Inv :=
  ⟨⟨Memory.wf_builtTable, fun _ => rfl⟩,
   portsInv_two rfl (by simp [Acc.QueueInv, Instr.acc?]) (queueInv_nil 1 0)⟩

theorem readers_inv : (busy [.sum 0 [], .size 0]).Inv :=
  ⟨⟨Memory.wf_builtTable, fun _ => rfl⟩,
   portsInv_two rfl (by simp [Acc.QueueInv, Instr.acc?, conflict, writesState])
     (queueInv_nil 1 0)⟩

theorem holding_inv : (holding (.write 1 [0x61] 0)).Inv :=
  ⟨⟨rfl, fun h => nomatch h⟩,
   portsInv_two rfl (queueInv_nil 0 0) (by simp [Acc.QueueInv, Instr.acc?])⟩

theorem setAgenda_inv {s : State} (h : s.Inv) (l : List Move) : (s.setAgenda l).Inv := h

/-! ### Witnesses: the hypotheses of each statement are met together -/

theorem witness_ReservedWordsAreRefused :
    decode ⟨0, 0x07, [], 0⟩ = .error .reservedOp ∧
    decode ⟨0, 0xF8, [], 0⟩ = .error .reservedBits := by decide

/-- For an accumulator's word, and for BUILD, which has no accumulator to be idle. -/
theorem witness_StepRunsDecodedOperation :
    ((built 0).setAgenda [.call ⟨1, 0x01, [0x61], 3⟩]).agenda = .call ⟨1, 0x01, [0x61], 3⟩ :: [] ∧
    decode ⟨1, 0x01, [0x61], 3⟩ = .ok (.write 1 [0x61] 3) ∧
    (∀ k, (Instr.write 1 [0x61] 3).acc? = some k →
      ∃ a, ((built 0).setAgenda [.call ⟨1, 0x01, [0x61], 3⟩]).accs[k]? = some a ∧
        a.inProgress = []) ∧
    (∀ k, Instr.build.acc? = some k → ∃ a, unbuilt.accs[k]? = some a ∧ a.inProgress = []) := by
  refine ⟨rfl, by decide, ?_, ?_⟩
  · intro k hk; cases hk; exact ⟨_, rfl, rfl⟩
  · intro k hk; cases hk

theorem witness_PlacedWordRuns :
    decodeTableWord 8 0x05 = some (.blockSize 0) ∧ 0 < State.reset.accs.length ∧
    Instr.blockSize 0 ≠ .build :=
  ⟨by decide, by simp [Config.nAcc_pos], by decide⟩

theorem witness_CallIsArrivalThenAgentStep :
    decode ⟨0, 0x03, [], 0⟩ = .ok (.reset 0) := by decide

theorem witness_ResetLeaves : State.reset.accs[0]? = some Acc.fresh := rfl

theorem witness_HardResetReturnsToReset :
    ((built 7).setAgenda [.hardReset, .serve (.acc 0)]).agenda =
      .hardReset :: [.serve (.acc 0)] := rfl

/-- With the table not built, and built. -/
theorem witness_BuildAtAnyMoment :
    (unbuilt.setAgenda [.serve .tableBuilder]).agenda = .serve .tableBuilder :: [] ∧
    (unbuilt.setAgenda [.serve .tableBuilder]).tableValid = false ∧
    ((built 7).setAgenda [.serve .tableBuilder]).agenda = .serve .tableBuilder :: [] ∧
    ((built 7).setAgenda [.serve .tableBuilder]).tableValid = true := ⟨rfl, rfl, rfl, rfl⟩

theorem witness_RunEndsAtRest :
    (built 7).agenda = [] ∧ (built 7).tableValid = true ∧ (built 7).AtRest :=
  ⟨rfl, rfl, rfl, by simp [built, accWith]⟩

theorem witness_BitStepShiftsAndFeedsBack :
    (0xFFFFFFFFFFFFFFFF : Word).toNat % 2 = 1 ∧ (0x8000000000000000 : Word).toNat % 2 = 0 := by decide

/-- The first and the last row step. -/
theorem witness_BuildFillsTable :
    (built 7).tableValid = true ∧ State.reset.tableValid = false ∧ 0 < 7 ∧ 6 < 7 :=
  ⟨rfl, rfl, by decide, by decide⟩

theorem witness_BuildIsTotal : unbuilt.tableValid = false := rfl

theorem witness_RepeatedBuildChangesNothing : (built 7).tableValid = true := rfl

/-- The empty table space, and one that lists two entries. -/
theorem witness_BuildLoopGivesBuiltTable :
    Memory.wf [] = true ∧ Memory.wf [(3, 5), (2047, 1)] = true := by decide

theorem loopOrder_mem {k : Nat} {n : Byte} : (k, n) ∈ loopOrder ↔ k < 8 := by
  simp only [loopOrder, List.mem_flatMap, List.mem_range, List.mem_map, Prod.mk.injEq, Config.rows,
    Config.rowEntries]
  constructor
  · rintro ⟨j, hj, x, -, rfl, -⟩; exact hj
  · intro hk
    exact ⟨k, hk, n.toNat, n.isLt, rfl, by simp⟩

theorem loopOrder_rising : loopOrder.Pairwise fun e f => e.1 ≤ f.1 := by
  rw [loopOrder, List.pairwise_flatMap]
  constructor
  · intro k _; rw [List.pairwise_map]; exact List.Pairwise.imp (fun _ => le_refl k) (List.pairwise_lt_range)
  · refine List.Pairwise.imp ?_ (List.pairwise_lt_range (n := Config.rows))
    intro k j hkj e he f hf
    simp only [List.mem_map] at he hf
    obtain ⟨x, -, rfl⟩ := he
    obtain ⟨y, -, rfl⟩ := hf
    exact Nat.le_of_lt hkj

/-- The order of the loops of rule R53 is one of the admissible orders. -/
theorem witness_AdmissibleWriteOrdersAgree :
    Memory.wf [] = true ∧ (∀ e ∈ loopOrder, e.1 < 8) ∧
    (∀ (k : Nat) (n : Byte), k < 8 → (k, n) ∈ loopOrder) ∧
    (∀ (done later : List (Nat × Byte)) (k : Nat) (n : Byte),
      loopOrder = done ++ (k + 1, n) :: later →
        (k, n) ∈ done ∧ (0, lowByte (builtEntry k n)) ∈ done) := by
  refine ⟨rfl, fun e he => loopOrder_mem.mp he, fun k n hk => loopOrder_mem.mpr hk, ?_⟩
  intro done later k n h
  have hk : k + 1 < 8 := (loopOrder_mem (n := n)).mp (by rw [h]; simp)
  have hp := loopOrder_rising
  rw [h, List.pairwise_append, List.pairwise_cons] at hp
  have key : ∀ j m, j < k + 1 → (j, m) ∈ done := by
    intro j m hj
    have hm : (j, m) ∈ done ++ (k + 1, n) :: later := h ▸ loopOrder_mem.mpr (by omega)
    rcases List.mem_append.mp hm with hm | hm
    · exact hm
    · rcases List.mem_cons.mp hm with hm | hm
      · cases hm; omega
      · have := hp.2.1.1 _ hm; omega
  exact ⟨key k n (by omega), key 0 _ (by omega)⟩

theorem witness_EntryIsZeroStepsOfByte : 0 < 8 ∧ 7 < 8 := by decide

theorem witness_RowsFoldTrailingZeros : 0 < 7 ∧ 6 < 7 ∧ 0 < 8 ∧ 7 < 8 := by decide

theorem witness_ValidTableHasNoUnbuiltEntry :
    (built 7).Inv ∧ (built 7).tableValid = true ∧ 0 < 8 ∧ 7 < 8 :=
  ⟨built_inv 7, rfl, by decide, by decide⟩

theorem witness_LittleEndianAssembly :
    ([1, 2, 3, 4, 5, 6, 7, 8] : List Byte)[0]? = some 1 ∧
    ([1, 2, 3, 4, 5, 6, 7, 8] : List Byte)[7]? = some 8 := by decide

theorem witness_BigEndianOutput : 0 < 8 ∧ 7 < 8 := by decide

theorem witness_Phase2RunsWholeRounds :
    ([] : List Byte).length < 8 ∧ ([1, 2, 3, 4, 5, 6, 7] : List Byte).length < 8 := by decide

/-- An input as long as the prefix of a = 1, and 7 bytes. -/
theorem witness_ShortInputsTakeNoRound :
    (([1, 2, 3, 4, 5, 6, 7] : List Byte).length ≤ (8 - (1 : Fin 8).val) % 8) ∧
    ([1, 2, 3, 4, 5, 6, 7] : List Byte).length < 8 := by decide

/-- A hold answers a next state, so the hold clauses of the completion statements are about one. -/
theorem witness_hold :
    (∃ t, exec (.write 0 [0x61] 0) unbuilt = .next t) ∧ (∃ t, exec (.sum 0 []) unbuilt = .next t) ∧
    (∃ t, exec (.reset 0) unbuilt = .next t) ∧ (∃ t, exec (.size 0) unbuilt = .next t) ∧
    (∃ t, exec (.blockSize 0) unbuilt = .next t) :=
  ⟨⟨_, rfl⟩, ⟨_, rfl⟩, ⟨_, rfl⟩, ⟨_, rfl⟩, ⟨_, rfl⟩⟩

/-- Built, in a state of the invariant; and not built. -/
theorem witness_WriteCompletes :
    (built 7).tableValid = true ∧ (built 7).accs[0]? = some (accWith 7) ∧ (built 7).Inv ∧
    unbuilt.tableValid = false ∧ unbuilt.accs[0]? = some Acc.fresh :=
  ⟨rfl, rfl, built_inv 7, rfl, rfl⟩

theorem witness_SumCompletes :
    (built 7).tableValid = true ∧ (built 7).accs[0]? = some (accWith 7) ∧
    unbuilt.tableValid = false ∧ unbuilt.accs[0]? = some Acc.fresh := ⟨rfl, rfl, rfl, rfl⟩

theorem witness_ResetCompletes :
    (built 7).tableValid = true ∧ (built 7).accs[1]? = some (accWith 0) ∧
    unbuilt.tableValid = false ∧ unbuilt.accs[1]? = some Acc.fresh := ⟨rfl, rfl, rfl, rfl⟩

theorem witness_SizeAndBlockSizeComplete :
    (built 7).tableValid = true ∧ (built 7).accs[1]? = some (accWith 0) ∧
    unbuilt.tableValid = false ∧ unbuilt.accs[1]? = some Acc.fresh := ⟨rfl, rfl, rfl, rfl⟩

theorem witness_OperationsHoldBeforeBuild :
    (Instr.size 1).acc? = some 1 ∧ unbuilt.tableValid = false ∧
    unbuilt.accs[1]? = some Acc.fresh := ⟨rfl, rfl, rfl⟩

/-- A run and a hold. -/
theorem witness_AccumulatorOperationFrame :
    (∃ t, (Instr.reset 0).acc? = some 0 ∧ (built 7).accs[0]? = some (accWith 7) ∧
      exec (.reset 0) (built 7) = .next t) ∧
    (∃ t, (Instr.sum 1 []).acc? = some 1 ∧ unbuilt.accs[1]? = some Acc.fresh ∧
      writesState (.sum 1 []) = false ∧ exec (.sum 1 []) unbuilt = .next t) :=
  ⟨⟨_, rfl, rfl, rfl⟩, ⟨_, rfl, rfl, rfl, rfl⟩⟩

/-- An unbuilt and a valid table; the first address beyond the table. -/
theorem witness_BuildFrame :
    (∃ t, exec .build unbuilt = .next t) ∧ unbuilt.table.wf = true ∧ 2048 ≤ 2048 ∧
    (∃ t, exec .build (built 7) = .next t) ∧ (built 7).tableValid = true :=
  ⟨⟨_, rfl⟩, rfl, le_refl _, ⟨_, rfl⟩, rfl⟩

theorem witness_ZeroAndIdentity :
    State.reset.accs[0]? = some Acc.fresh ∧ (built 7).tableValid = true ∧
    (built 7).accs[0]? = some (accWith 7) ∧ (built 7).accs[1]? = some (accWith 0) ∧
    (accWith 0).crc = 0 := ⟨rfl, rfl, rfl, rfl, rfl⟩

theorem witness_NoResidualLeakage :
    (built 7).Inv ∧ (built 0).Inv ∧ (built 7).tableValid = true ∧ (built 0).tableValid = true ∧
    (built 7).accs[0]? = some (accWith 7) ∧ (built 0).accs[1]? = some (accWith 0) ∧
    (accWith 0).crc = 0 := ⟨built_inv 7, built_inv 0, rfl, rfl, rfl, rfl, rfl⟩

theorem witness_SumRoundTrip :
    (built 7).tableValid = true ∧ (built 7).accs[0]? = some (accWith 7) ∧
    ([0xAA] : List Byte) ++ be8 7 = [0xAA] ++ be8 7 := ⟨rfl, rfl, rfl⟩

/-- Each operation that may stand between the two WRITEs. -/
theorem witness_WritesCompose :
    (built 7).Inv ∧ (built 7).tableValid = true ∧ (built 7).accs[0]? = some (accWith 7) ∧
    (∀ mid ∈ [Instr.sum 0 [0xAA], .size 0, .blockSize 0],
      mid.acc? = some 0 ∧ writesState mid = false) :=
  ⟨built_inv 7, rfl, rfl, by decide⟩

/-- Two states that differ at the other accumulator. -/
theorem witness_OperationSeesOwnStateOnly :
    (built 7).Inv ∧ (built 9).Inv ∧ (built 7).tableValid = true ∧ (built 9).tableValid = true ∧
    (Instr.write 1 [0x61] 0).acc? = some 1 ∧ (built 7).accs[1]? = some (accWith 0) ∧
    (built 9).accs[1]? = some (accWith 0) := ⟨built_inv 7, built_inv 9, rfl, rfl, rfl, rfl, rfl⟩

theorem witness_DifferentAccumulatorsCommute :
    (Instr.write 0 [0x61] 0).acc? = some 0 ∧ (Instr.reset 1).acc? = some 1 ∧ (0 : Nat) ≠ 1 ∧
    0 < (built 7).accs.length ∧ 1 < (built 7).accs.length := by
  refine ⟨rfl, rfl, by decide, by simp [built], by simp [built]⟩

/-- A SUM against a WRITE in progress, and a RESET against a SUM in progress. -/
theorem witness_OverlapIsRefused :
    decode ⟨0, 0x02, [], 0⟩ = .ok (.sum 0 []) ∧ (Instr.sum 0 []).acc? = some 0 ∧
    (busy [.write 0 [0x62] 0]).accs[0]? =
      some { accWith 0 with inProgress := [.write 0 [0x62] 0] } ∧
    writesState (.write 0 [0x62] 0) = true ∧
    decode ⟨0, 0x03, [], 0⟩ = .ok (.reset 0) ∧
    (busy [.sum 0 []]).accs[0]? = some { accWith 0 with inProgress := [.sum 0 []] } ∧
    writesState (.reset 0) = true :=
  ⟨by decide, rfl, rfl, rfl, by decide, rfl, rfl⟩

/-- A WRITE where nothing is in progress, and a SIZE where a SUM is in progress. -/
theorem witness_NoOverlapIsAccepted :
    decode ⟨1, 0x01, [0x61], 0⟩ = .ok (.write 1 [0x61] 0) ∧
    (busy [.write 0 [0x62] 0]).accs[1]? = some (accWith 0) ∧
    (∀ x ∈ (accWith 0).inProgress, writesState x = false ∧
      writesState (.write 1 [0x61] 0) = false) ∧
    decode ⟨0, 0x04, [], 0⟩ = .ok (.size 0) ∧
    (busy [.sum 0 []]).accs[0]? = some { accWith 0 with inProgress := [.sum 0 []] } ∧
    (∀ x ∈ [Instr.sum 0 []], writesState x = false ∧ writesState (.size 0) = false) :=
  ⟨by decide, rfl, by simp [accWith], by decide, rfl, by decide⟩

theorem witness_BuildCommandIsAccepted :
    decode ⟨0, 0x00, [], 0⟩ = .ok .build ∧ decode ⟨5, 0x00, [], 0⟩ = .ok .build := by decide

/-- An operation alone in progress, and one with a reader behind it. -/
theorem witness_AgentRunsOldestOperation :
    ((busy [.write 0 [0x62] 0]).setAgenda [.serve (.acc 0)]).Inv ∧
    (busy [.write 0 [0x62] 0]).tableValid = true ∧
    (busy [.write 0 [0x62] 0]).accs[0]? =
      some { accWith 0 with inProgress := .write 0 [0x62] 0 :: [] } ∧
    ((busy [.sum 0 [], .size 0]).setAgenda [.serve (.acc 0)]).Inv ∧
    (busy [.sum 0 [], .size 0]).accs[0]? =
      some { accWith 0 with inProgress := .sum 0 [] :: [.size 0] } :=
  ⟨busy_inv, rfl, rfl, readers_inv, rfl⟩

/-- With nothing and with a move after the two. -/
theorem witness_BuildLiftsHold :
    ((holding (.write 1 [0x61] 0)).setAgenda [.serve .tableBuilder, .serve (.acc 1)]).Inv ∧
    ((holding (.write 1 [0x61] 0)).setAgenda
      [.serve .tableBuilder, .serve (.acc 1), .hardReset]).Inv ∧
    (holding (.write 1 [0x61] 0)).tableValid = false ∧
    (holding (.write 1 [0x61] 0)).accs[1]? =
      some { accWith 0 with inProgress := .write 1 [0x61] 0 :: [] } :=
  ⟨holding_inv, holding_inv, rfl, rfl⟩

/-- A step with a call, from a state of the invariant. -/
theorem witness_StepKeepsInvariant :
    ((built 7).setAgenda [.call ⟨0, 0x04, [], 0⟩]).Inv ∧
    (∃ t, step ((built 7).setAgenda [.call ⟨0, 0x04, [], 0⟩]) = .next t) :=
  ⟨built_inv 7, ⟨_, rfl⟩⟩

theorem witness_BuiltTableNeverChanges :
    ((built 7).setAgenda [.call ⟨0, 0x00, [], 0⟩]).tableValid = true ∧
    (∀ rest, ((built 7).setAgenda [.call ⟨0, 0x00, [], 0⟩]).agenda ≠ .hardReset :: rest) ∧
    (∃ t, step ((built 7).setAgenda [.call ⟨0, 0x00, [], 0⟩]) = .next t) :=
  ⟨rfl, by simp, ⟨_, rfl⟩⟩

/-- Each way in which a STATE changes: the reset of the whole block, a RESET that is called, and a WRITE
that is called, in progress, or run with no moves left. -/
theorem witness_StateComesFromResetOrWrite :
    (built 7).Inv ∧ (built 0).Inv ∧ (busy [.write 0 [0x61] 0]).Inv ∧
    crcAfter 0 (step ((built 7).setAgenda [.hardReset])) = some 0 ∧
    crcAfter 0 (step ((built 7).setAgenda [.call ⟨0, 0x03, [], 0⟩])) = some 0 ∧
    (built 7).accs[0]? = some (accWith 7) ∧ (accWith 7).crc ≠ 0 ∧
    crcAfter 0 (step ((built 0).setAgenda [.call ⟨0, 0x01, [0x61], 0⟩])) =
      some 0x5BB0000000000000 ∧
    crcAfter 0 (step ((busy [.write 0 [0x61] 0]).setAgenda [.serve (.acc 0)])) =
      some 0x5BB0000000000000 ∧
    crcAfter 0 (step (busy [.write 0 [0x61] 0])) = some 0x5BB0000000000000 :=
  ⟨built_inv 7, built_inv 0, busy_inv, by decide, by decide, rfl, by decide, by decide, by decide,
   by decide⟩

/-- The step that each of them runs, in the words of `State.Runs`. -/
theorem witness_Runs :
    ((built 0).setAgenda [.call ⟨0, 0x01, [0x61], 0⟩]).Runs 0 (.write 0 [0x61] 0) ∧
    ((busy [.write 0 [0x61] 0]).setAgenda [.serve (.acc 0)]).Runs 0 (.write 0 [0x61] 0) ∧
    (busy [.write 0 [0x61] 0]).Runs 0 (.write 0 [0x61] 0) :=
  ⟨⟨_, rfl, _, by decide, rfl, rfl⟩, ⟨_, rfl, rfl, rfl⟩, ⟨_, rfl, rfl, rfl⟩⟩

theorem witness_AccumulatorCountIsFixed :
    ∃ t, step ((built 7).setAgenda [.hardReset]) = .next t := ⟨_, rfl⟩

/-- Each of the three refusals, from a state of the invariant. -/
theorem witness_OnlyBadRequestsAreRefused :
    ((busy [.write 0 [0x62] 0]).setAgenda [.call ⟨0, 0xFF, [], 0⟩]).Inv ∧
    step ((busy [.write 0 [0x62] 0]).setAgenda [.call ⟨0, 0xFF, [], 0⟩]) =
      .refused (.invalidWord 0xFF) ∧
    step ((busy [.write 0 [0x62] 0]).setAgenda [.issue ⟨2, 0x04, [], 0⟩]) =
      .refused (.noSuchAcc 2) ∧
    step ((busy [.write 0 [0x62] 0]).setAgenda [.issue ⟨0, 0x02, [], 0⟩]) =
      .refused (.overlap 0) := ⟨busy_inv, rfl, rfl, rfl⟩

theorem witness_EverythingOutstandingCompletes :
    (holding (.write 1 [0x61] 0)).Inv ∧ (holding (.write 1 [0x61] 0)).agenda = [] :=
  ⟨holding_inv, rfl⟩

end Sys2Proof.Tests
end

section
/-! PROOFS. Byte order (20_memory.md): what LE64 and BE8 say of the bytes of a word. -/

namespace Sys2Proof.Machine

/-! ### The low byte and zero extension -/

@[simp] theorem lowByte_toNat (v : Word) : (lowByte v).toNat = v.toNat % 256 :=
  BitVec.toNat_setWidth 8 v

@[simp] theorem zext64_toNat (b : Byte) : (zext64 b).toNat = b.toNat :=
  BitVec.toNat_setWidth_of_le (by decide)

@[simp] theorem lowByte_zext64 (b : Byte) : lowByte (zext64 b) = b :=
  BitVec.eq_of_toNat_eq (by simpa using b.isLt)

@[simp] theorem lowByte_xor (v w : Word) : lowByte (v ^^^ w) = lowByte v ^^^ lowByte w :=
  BitVec.setWidth_xor

/-- A single byte has nothing above the low byte of the word. -/
@[simp] theorem zext64_ushiftRight_eight (b : Byte) : zext64 b >>> 8 = 0 :=
  BitVec.eq_of_toNat_eq (by
    simpa [Nat.shiftRight_eq_div_pow] using Nat.div_eq_of_lt b.isLt)

/-- A byte shifted into one of the eight byte lanes of a word loses no bit. -/
theorem zext64_shiftLeft_toNat (b : Byte) {k : Nat} (hk : k ≤ 56) :
    (zext64 b <<< k).toNat = 2 ^ k * b.toNat := by
  have hlane : 2 ^ k * b.toNat < 2 ^ 64 :=
    calc 2 ^ k * b.toNat < 2 ^ k * 2 ^ 8 := Nat.mul_lt_mul_of_pos_left b.isLt (Nat.two_pow_pos k)
      _ = 2 ^ (k + 8) := (Nat.pow_add 2 k 8).symm
      _ ≤ 2 ^ 64 := Nat.pow_le_pow_right (by decide) (by omega)
  rw [BitVec.toNat_shiftLeft, zext64_toNat, Nat.shiftLeft_eq, Nat.mul_comm, Nat.mod_eq_of_lt hlane]

/-! ### LE64 (rule R28) -/

/-- The eight byte lanes do not overlap, so the sum of LE64 never wraps. -/
theorem le64_toNat (d0 d1 d2 d3 d4 d5 d6 d7 : Byte) :
    (le64 d0 d1 d2 d3 d4 d5 d6 d7).toNat =
      d0.toNat + 2 ^ 8 * d1.toNat + 2 ^ 16 * d2.toNat + 2 ^ 24 * d3.toNat + 2 ^ 32 * d4.toNat
        + 2 ^ 40 * d5.toNat + 2 ^ 48 * d6.toNat + 2 ^ 56 * d7.toNat := by
  simp only [le64, BitVec.toNat_add, zext64_toNat, zext64_shiftLeft_toNat, Nat.reduceLeDiff]
  omega

/-- LE64 read as the number whose base-256 digits, least significant first, are the bytes. -/
theorem le64_toNat_eq_ofDigits (d0 d1 d2 d3 d4 d5 d6 d7 : Byte) :
    (le64 d0 d1 d2 d3 d4 d5 d6 d7).toNat =
      Nat.ofDigits 256 ([d0, d1, d2, d3, d4, d5, d6, d7].map BitVec.toNat) := by
  simp only [le64_toNat, List.map, Nat.ofDigits_cons, Nat.ofDigits_nil]
  omega

/-- Digit j of a number given by its base-256 digits is byte j: the division drops the j digits below
it, and the remainder keeps the first of the rest. -/
theorem ofDigits_bytes_digit {l : List Byte} {j : Nat} {d : Byte} (h : l[j]? = some d) :
    Nat.ofDigits 256 (l.map BitVec.toNat) / 2 ^ (8 * j) % 256 = d.toNat := by
  have hdigits : ∀ n ∈ l.map BitVec.toNat, n < 256 :=
    List.forall_mem_map.mpr fun b _ => b.isLt
  obtain ⟨hj, hd⟩ := List.getElem?_eq_some_iff.mp h
  calc Nat.ofDigits 256 (l.map BitVec.toNat) / 2 ^ (8 * j) % 256
      = Nat.ofDigits 256 ((l.map BitVec.toNat).drop j) % 256 := by
        rw [Nat.pow_mul, Nat.ofDigits_div_pow_eq_ofDigits_drop j (by decide) _ hdigits]
    _ = Nat.ofDigits 256 (d.toNat :: (l.drop (j + 1)).map BitVec.toNat) % 256 := by
        rw [← List.map_drop, List.drop_eq_getElem_cons hj, hd, List.map_cons]
    _ = d.toNat := by
        rw [Nat.ofDigits_cons, Nat.add_mul_mod_self_left, Nat.mod_eq_of_lt d.isLt]

/-- Byte j of LE64 is the byte at offset j. -/
theorem le64_byte {d0 d1 d2 d3 d4 d5 d6 d7 d : Byte} {j : Nat}
    (h : [d0, d1, d2, d3, d4, d5, d6, d7][j]? = some d) :
    (le64 d0 d1 d2 d3 d4 d5 d6 d7).extractLsb' (8 * j) 8 = d :=
  BitVec.eq_of_toNat_eq (by
    rw [BitVec.extractLsb'_toNat, Nat.shiftRight_eq_div_pow, le64_toNat_eq_ofDigits]
    exact ofDigits_bytes_digit h)

/-- A single byte meets the low byte of the state. -/
theorem lowByte_xor_zext64 (s : Word) (b : Byte) : lowByte (s ^^^ zext64 b) = lowByte s ^^^ b := by
  simp

/-- A single byte leaves everything above the low byte of the state alone. -/
theorem xor_zext64_ushiftRight_eight (s : Word) (b : Byte) : (s ^^^ zext64 b) >>> 8 = s >>> 8 := by
  simp [BitVec.ushiftRight_xor_distrib]

/-- Settles O22: the lanes of LE64 are disjoint, so its value is the sum and its base-256 digits are
the bytes; a zero-extended byte vanishes under the shift by 8. -/
theorem littleEndianAssembly : Obligations.LittleEndianAssembly := fun s d0 d1 d2 d3 d4 d5 d6 d7 =>
  ⟨le64_toNat d0 d1 d2 d3 d4 d5 d6 d7, fun _ _ h => le64_byte h, lowByte_xor_zext64 s d0,
    xor_zext64_ushiftRight_eight s d0⟩

/-! ### BE8 (rule R29) -/

@[simp] theorem be8_length (s : Word) : (be8 s).length = 8 := rfl

/-- BE8 as one formula in the position. -/
theorem be8_eq_map (s : Word) :
    be8 s = (List.range 8).map fun j => lowByte (s >>> (56 - 8 * j)) := rfl

/-- Byte j of BE8 is the low byte of the state shifted right by 56 - 8j. -/
theorem be8_byte (s : Word) {j : Nat} (hj : j < 8) :
    (be8 s)[j]? = some (lowByte (s >>> (56 - 8 * j))) := by
  simp [be8_eq_map, hj]

/-- Settles O23, from the byte of BE8 at each position. -/
theorem bigEndianOutput : Obligations.BigEndianOutput := fun s =>
  ⟨be8_length s, fun j hj => by simp [be8_byte s hj, Nat.shiftRight_eq_div_pow]⟩

end Sys2Proof.Machine
end

section
/-! PROOFS. Encoding (30_encoding.md): the fields of the command word, what the decoder answers on
each word, and which words it refuses. -/

namespace Sys2Proof

/-! ### The fields of the command word (rule R42) -/

@[simp] theorem rsvField_toNat (w : Byte) : (rsvField w).toNat = w.toNat / 8 := by
  rw [rsvField, BitVec.extractLsb'_toNat, Nat.shiftRight_eq_div_pow]
  omega

@[simp] theorem opField_toNat (w : Byte) : (opField w).toNat = w.toNat % 8 := by
  simp [opField, BitVec.extractLsb'_toNat]

/-- No bit of `rsv` is set exactly in the words below 0x08. -/
theorem rsvField_eq_zero_iff (w : Byte) : rsvField w = 0#5 ↔ w.toNat < 8 := by
  rw [BitVec.toNat_eq, rsvField_toNat]
  exact Nat.div_eq_zero_iff_lt (by decide)

/-- The reserved words of rule R46 are the words above 0x05. -/
theorem reserved_iff (w : Byte) :
    (opField w = 6 ∨ opField w = 7 ∨ rsvField w ≠ 0) ↔ 5 < w.toNat := by
  have hop (n : BitVec 3) : opField w = n ↔ w.toNat % 8 = n.toNat := by
    rw [BitVec.toNat_eq, opField_toNat]
  simp only [hop, Ne, rsvField_eq_zero_iff, BitVec.ofNat_eq_ofNat, BitVec.reduceToNat]
  omega

/-! ### What the decoder answers on each word (rule R43, rule R46) -/

section
variable {r : Request}

theorem decode_build (h : r.word = 0x00) : decode r = .ok .build := by
  rw [decode, h]; rfl

theorem decode_write (h : r.word = 0x01) : decode r = .ok (.write r.port r.data r.offset) := by
  rw [decode, h]; rfl

theorem decode_sum (h : r.word = 0x02) : decode r = .ok (.sum r.port r.data) := by
  rw [decode, h]; rfl

theorem decode_reset (h : r.word = 0x03) : decode r = .ok (.reset r.port) := by
  rw [decode, h]; rfl

theorem decode_size (h : r.word = 0x04) : decode r = .ok (.size r.port) := by
  rw [decode, h]; rfl

theorem decode_blockSize (h : r.word = 0x05) : decode r = .ok (.blockSize r.port) := by
  rw [decode, h]; rfl

theorem decode_reservedOp (h : r.word = 0x06 ∨ r.word = 0x07) :
    decode r = .error .reservedOp := by
  obtain h | h := h <;> rw [decode, h] <;> rfl

theorem decode_reservedBits (h : 8 ≤ r.word.toNat) : decode r = .error .reservedBits :=
  if_neg fun h0 => absurd ((rsvField_eq_zero_iff r.word).mp h0) (by omega)

/-- The decoder answers an operation whose command word is the request's, or the word is above 0x05
and the decoder answers an error. -/
theorem decode_cases (r : Request) :
    (∃ i, decode r = .ok i ∧ r.word = encodeWord i) ∨
    (5 < r.word.toNat ∧ ∃ e, decode r = .error e) := by
  by_cases hbits : 8 ≤ r.word.toNat
  · exact .inr ⟨by omega, _, decode_reservedBits hbits⟩
  by_cases hop : 5 < r.word.toNat
  · exact .inr ⟨hop, _, decode_reservedOp (by bv_omega)⟩
  have hword : r.word = 0x00 ∨ r.word = 0x01 ∨ r.word = 0x02 ∨ r.word = 0x03 ∨ r.word = 0x04 ∨
      r.word = 0x05 := by bv_omega
  obtain h | h | h | h | h | h := hword
  · exact .inl ⟨_, decode_build h, h⟩
  · exact .inl ⟨_, decode_write h, h⟩
  · exact .inl ⟨_, decode_sum h, h⟩
  · exact .inl ⟨_, decode_reset h, h⟩
  · exact .inl ⟨_, decode_size h, h⟩
  · exact .inl ⟨_, decode_blockSize h, h⟩

/-- A request decodes to operations of its own word only. -/
theorem word_of_decode {i : Instr} (h : decode r = .ok i) : r.word = encodeWord i := by
  obtain ⟨j, hj, hw⟩ | ⟨-, e, he⟩ := decode_cases r
  · cases hj.symm.trans h; exact hw
  · cases he.symm.trans h

/-- Where the word of `i` makes the decoder answer `op`, the request decodes to `i` exactly when it
has that word and `op` is `i`. -/
theorem decode_eq_ok_iff {i op : Instr} (hd : r.word = encodeWord i → decode r = .ok op) :
    decode r = .ok i ↔ r.word = encodeWord i ∧ op = i := by
  constructor
  · intro h
    have hw := word_of_decode h
    exact ⟨hw, Except.ok.inj ((hd hw).symm.trans h)⟩
  · rintro ⟨hw, rfl⟩
    exact hd hw

theorem encodeWord_le (i : Instr) : (encodeWord i).toNat ≤ 5 := by
  cases i <;> simp [encodeWord]

/-- The decoder refuses exactly the words above 0x05. -/
theorem decode_eq_error_iff : (∃ e, decode r = .error e) ↔ 5 < r.word.toNat := by
  obtain ⟨i, hi, hw⟩ | ⟨hlt, he⟩ := decode_cases r
  · simp [hi, hw, encodeWord_le]
  · exact iff_of_true he hlt

end

/-- Decoding what `encode` lays out gives the operation back. -/
theorem decode_encode (i : Instr) : decode (encode i) = .ok i := by
  cases i with
  | build => exact decode_build rfl
  | write k p a => exact decode_write rfl
  | sum k pre => exact decode_sum rfl
  | reset k => exact decode_reset rfl
  | size k => exact decode_size rfl
  | blockSize k => exact decode_blockSize rfl

/-- Settles O3: a decoded request has the word of its operation, and that word fixes the answer up
to the operands. -/
theorem decodeAndEncodeAgree : Obligations.DecodeAndEncodeAgree := by
  refine ⟨decode_encode, fun r i => ?_⟩
  cases i with
  | build => simpa [encodeWord] using decode_eq_ok_iff (i := .build) decode_build
  | write k p a => simpa [encodeWord] using decode_eq_ok_iff (i := .write k p a) decode_write
  | sum k pre => simpa [encodeWord] using decode_eq_ok_iff (i := .sum k pre) decode_sum
  | reset k => simpa [encodeWord] using decode_eq_ok_iff (i := .reset k) decode_reset
  | size k => simpa [encodeWord] using decode_eq_ok_iff (i := .size k) decode_size
  | blockSize k => simpa [encodeWord] using decode_eq_ok_iff (i := .blockSize k) decode_blockSize

/-- Of the one-byte words, the opcode table has no operation for those above 0x05. -/
theorem decodeTableWord_isNone {w : Nat} (hw : w < 256) :
    (decodeTableWord 8 w).isNone = decide (5 < w) := by
  have hword : (wordAtPort0 w).word.toNat = w := Nat.mod_eq_of_lt hw
  have hiff := decode_eq_error_iff (r := wordAtPort0 w)
  rw [hword] at hiff
  cases hd : decode (wordAtPort0 w) with
  | ok i => simpa [decodeTableWord, hw, hd] using hiff
  | error e => simpa [decodeTableWord, hw, hd] using hiff

/-- Of the 256 command words 250 are refused (rule R46). -/
theorem decodeTableWord_refused_count :
    ((List.range 256).filter fun w => (decodeTableWord 8 w).isNone).length = 250 := by
  have hlow : (List.range 6).filter (fun w => decide (5 < w)) = [] := rfl
  have hhigh : ((List.range 250).map (6 + ·)).filter (fun w => decide (5 < w)) =
      (List.range 250).map (6 + ·) :=
    List.filter_eq_self.mpr (List.forall_mem_map.mpr fun w _ => decide_eq_true (by omega))
  rw [List.filter_congr fun w hw => decodeTableWord_isNone (List.mem_range.mp hw),
    List.range_add (n := 6) (m := 250), List.filter_append, hlow, hhigh]
  simp

end Sys2Proof

namespace Sys2Proof.Machine

/-! ### A reserved word at a command port (rule R46, rule R93) -/

@[simp] theorem step_call (s : State) (r : Request) (rest : List Move) :
    step (s.setAgenda (.call r :: rest)) = call r (s.setAgenda rest) := rfl

@[simp] theorem step_issue (s : State) (r : Request) (rest : List Move) :
    step (s.setAgenda (.issue r :: rest)) = arrive r (s.setAgenda rest) := rfl

theorem call_of_decode_error {r : Request} {e : DecodeError} (h : decode r = .error e) (s : State) :
    call r s = .refused (.invalidWord r.word) := by
  simp [call, h]

theorem arrive_of_decode_error {r : Request} {e : DecodeError} (h : decode r = .error e)
    (s : State) : arrive r s = .refused (.invalidWord r.word) := by
  simp [arrive, h]

/-- Settles O2: the decoder refuses exactly the words above 0x05, which are those with a reserved
`op` or a bit of `rsv`, and a port refuses them before it looks at the state. -/
theorem reservedWordsAreRefused : Obligations.ReservedWordsAreRefused := by
  refine ⟨fun r => ?_, fun r e s rest h => ⟨?_, ?_⟩, decodeTableWord_refused_count⟩
  · exact decode_eq_error_iff.trans (reserved_iff r.word).symm
  · rw [step_call, call_of_decode_error h]
  · rw [step_issue, arrive_of_decode_error h]

end Sys2Proof.Machine

namespace Sys2Proof

/-- Settles O1, from the decoder's answer on each of the eight words. -/
theorem commandWordsDecode : Obligations.CommandWordsDecode := fun _ _ _ =>
  ⟨decode_build rfl, decode_write rfl, decode_sum rfl, decode_reset rfl, decode_size rfl,
    decode_blockSize rfl, decode_reservedOp (.inl rfl), decode_reservedOp (.inr rfl)⟩

end Sys2Proof
end

section
/-! PROOFS. The TableBuilder (40_table_builder.md): the bit round and the rows of the table, each
as a linear map over exclusive-or, and what BUILD answers. -/

namespace Sys2Proof.Machine

/-! ### BITSTEP (rule R50) -/

/-- The low bit of a word is the parity of its value. -/
theorem lowBit_iff_odd (c : Word) : c.getLsbD 0 = true ↔ c.toNat % 2 = 1 := by
  simp only [BitVec.getLsbD, Nat.testBit_zero, decide_eq_true_eq]

theorem bitStep_of_odd {c : Word} (h : c.toNat % 2 = 1) : bitStep c = (c >>> 1) ^^^ Config.poly :=
  if_pos ((lowBit_iff_odd c).mpr h)

theorem bitStep_of_even {c : Word} (h : c.toNat % 2 = 0) : bitStep c = c >>> 1 :=
  if_neg (by rw [lowBit_iff_odd]; omega)

/-- The logical shift by one halves the value. -/
theorem ushiftRight_one_toNat (c : Word) : (c >>> 1).toNat = c.toNat / 2 := by
  rw [BitVec.toNat_ushiftRight, Nat.shiftRight_one]

/-- The term that a bit round adds to the shifted value: POLY times the low bit. -/
def feedback (low : Bool) : Word := if low then Config.poly else 0

theorem feedback_xor (a b : Bool) : feedback (a ^^ b) = feedback a ^^^ feedback b := by
  cases a <;> cases b <;> simp [feedback]

theorem bitStep_eq_xor_feedback (c : Word) : bitStep c = (c >>> 1) ^^^ feedback (c.getLsbD 0) := by
  unfold bitStep
  cases c.getLsbD 0 <;> simp [feedback]

/-- The shift, the low bit and the feedback are each linear, so the round is. -/
theorem bitStep_xor (c e : Word) : bitStep (c ^^^ e) = bitStep c ^^^ bitStep e := by
  simp only [bitStep_eq_xor_feedback, BitVec.ushiftRight_xor_distrib, BitVec.getLsbD_xor,
    feedback_xor]
  ac_rfl

theorem bitStep_zero : bitStep 0 = 0 := rfl

theorem bitStep_one : bitStep 1 = Config.poly := rfl

/-- Settles O12, from the value of the round at each parity and the linearity of the shift and of
the feedback. -/
theorem bitStepShiftsAndFeedsBack : Obligations.BitStepShiftsAndFeedsBack := by
  refine fun c e => ⟨fun h => ?odd, fun h => ?even, bitStep_xor c e, bitStep_zero, bitStep_one⟩
  case odd => rw [bitStep_of_odd h, BitVec.toNat_xor, ushiftRight_one_toNat]
  case even => rw [bitStep_of_even h, ushiftRight_one_toNat]

/-! ### Row 0 (rule R51) -/

theorem bitSteps_xor (k : Nat) (c e : Word) :
    bitSteps k (c ^^^ e) = bitSteps k c ^^^ bitSteps k e := by
  induction k generalizing c e with
  | zero => rfl
  | succ k ih => rw [bitSteps, bitStep_xor, ih, bitSteps, bitSteps]

theorem zext64_xor (m n : Byte) : zext64 (m ^^^ n) = zext64 m ^^^ zext64 n :=
  BitVec.setWidth_xor

/-- The zero state drops out: a row-0 entry is eight bit rounds of its index. -/
theorem row0_eq_bitSteps (n : Byte) : row0 n = bitSteps 8 (zext64 n) := by
  simp [row0, Config.bitRounds]

theorem row0_xor (m n : Byte) : row0 (m ^^^ n) = row0 m ^^^ row0 n := by
  simp only [row0_eq_bitSteps, zext64_xor, bitSteps_xor]

/-- The top bit of the index reaches the low bit at the eighth round only, which leaves POLY. -/
theorem row0_topBit : row0 0x80 = Config.poly := by decide

/-! ### The rows of the built table (rule R52) -/

/-- ROWK of a linear row 0 is linear. -/
theorem rowK_row0_xor (v w : Word) : rowK row0 (v ^^^ w) = rowK row0 v ^^^ rowK row0 w := by
  simp only [rowK, lowByte_xor, row0_xor, BitVec.ushiftRight_xor_distrib]
  ac_rfl

theorem builtEntry_xor (k : Nat) (m n : Byte) :
    builtEntry k (m ^^^ n) = builtEntry k m ^^^ builtEntry k n := by
  induction k with
  | zero => exact row0_xor m n
  | succ k ih => rw [builtEntry, ih, rowK_row0_xor, builtEntry, builtEntry]

/-- A linear row is zero at index 0. -/
theorem builtEntry_index_zero (k : Nat) : builtEntry k 0 = 0 := by
  simpa using builtEntry_xor k 0 0

/-- Row 0 of the built table is ROW0. -/
theorem entry_builtTable_row0 (n : Byte) : builtTable.entry 0 n = row0 n :=
  Memory.entry_builtTable n (by decide)

/-- Every later entry of the built table is ROWK of the entry before it, over the table's own
row 0. -/
theorem entry_builtTable_succ {k : Nat} (n : Byte) (hk : k < 7) :
    builtTable.entry (k + 1) n =
      builtTable.entry 0 (lowByte (builtTable.entry k n)) ^^^ (builtTable.entry k n >>> 8) := by
  have hrow : k + 1 < Config.rows := Nat.succ_lt_succ hk
  rw [Memory.entry_builtTable n hrow, Memory.entry_builtTable n (Nat.lt_of_succ_lt hrow),
    entry_builtTable_row0]
  rfl

/-- Settles O19: the built row 0 is ROW0, which is eight rounds of a linear map. -/
theorem rowZeroIsEightRounds : Obligations.RowZeroIsEightRounds := by
  simp only [Obligations.RowZeroIsEightRounds, entry_builtTable_row0]
  exact ⟨row0_eq_bitSteps, builtEntry_index_zero 0, row0_topBit, row0_xor⟩

/-! ### Rows as trailing zero bytes (rule R52, rule R60, rule R61) -/

/-- The byte step with a zero byte, on any table. -/
theorem byteStep_zeroByte (m : Memory) (s : Word) :
    byteStep m s 0 = m.entry 0 (lowByte s) ^^^ (s >>> 8) := by
  simp [byteStep, zext64]

/-- The byte step from a zero state is the row-0 entry of the byte, on any table. -/
theorem byteStep_zeroState (m : Memory) (n : Byte) : byteStep m 0 n = m.entry 0 n := by
  simp [byteStep]

/-- REF is the left fold of the byte step over the input. -/
theorem ref_eq_foldl (m : Memory) (s : Word) (p : List Byte) :
    ref m s p = p.foldl (byteStep m) s := by
  induction p generalizing s with
  | nil => rfl
  | cons b p ih => exact ih (byteStep m s b)

/-- Row `k + 1` of the built table is one zero byte after row `k`. -/
theorem entry_builtTable_succ_eq_byteStep {k : Nat} (n : Byte) (hk : k < 7) :
    builtTable.entry (k + 1) n = byteStep builtTable (builtTable.entry k n) 0 := by
  rw [byteStep_zeroByte, entry_builtTable_succ n hk]

/-- An entry of row `k` is the state that the reference reaches from zero on the index and `k` zero
bytes. -/
theorem entry_builtTable_eq_ref {k : Nat} (n : Byte) (hk : k < 8) :
    builtTable.entry k n = ref builtTable 0 (n :: List.replicate k 0) := by
  induction k with
  | zero => exact (byteStep_zeroState builtTable n).symm
  | succ k ih =>
    rw [entry_builtTable_succ_eq_byteStep n (Nat.lt_of_succ_lt_succ hk), ih (Nat.lt_of_succ_lt hk),
      List.replicate_succ', ref_eq_foldl, ref_eq_foldl, ← List.cons_append, List.foldl_concat]

/-- Settles O20, from the row recurrence of the built table and the linearity of each row. -/
theorem rowsFoldTrailingZeros : Obligations.RowsFoldTrailingZeros := by
  refine ⟨fun k n hk => ⟨entry_builtTable_succ n hk, entry_builtTable_succ_eq_byteStep n hk⟩,
    fun k m n hk => ⟨entry_builtTable_eq_ref n hk, ?_, ?_⟩⟩
  · simp only [Memory.entry_builtTable _ hk, builtEntry_xor]
  · rw [Memory.entry_builtTable _ hk, builtEntry_index_zero]

/-! ### BUILD (rule R53, rule R54, rule R55) -/

/-- Settles O13: an unbuilt block gets the built table, whose rows are those of rule R53. -/
theorem buildFillsTable : Obligations.BuildFillsTable := by
  refine ⟨fun s hv => exec_build_valid hv, fun s hv => ⟨_, exec_build_unbuilt hv, rfl, ?_⟩⟩
  have hrow0 (n : Byte) : builtTable.entry 0 n = bitSteps 8 (zext64 n) := by
    rw [entry_builtTable_row0, row0_eq_bitSteps]
  exact ⟨Memory.wf_builtTable, hrow0, fun k n hk => entry_builtTable_succ n hk, rfl, rfl, rfl⟩

/-- Settles O14: BUILD either finds the table valid or stores the one built table. -/
theorem buildIsTotal : Obligations.BuildIsTotal := by
  intro s
  cases hv : s.tableValid with
  | true => exact ⟨s, exec_build_valid hv, hv, nofun⟩
  | false => exact ⟨_, exec_build_unbuilt hv, rfl, fun _ => rfl⟩

/-- Settles O15: a valid table is BUILD's first test. -/
theorem repeatedBuildChangesNothing : Obligations.RepeatedBuildChangesNothing := fun _ hv =>
  exec_build_valid hv

end Sys2Proof.Machine
end

section
/-! PROOFS. The SlicingEngine (41_slicing_engine.md): the byte step as a linear map, the bulk round
as eight byte steps, and what each of the three phases of UPDATE consumes. -/

namespace Sys2Proof.Machine

/-! ### BYTESTEP (rule R60) -/

/-- The byte step by its table index, on any table. -/
theorem byteStep_eq_entry (m : Memory) (s : Word) (b : Byte) :
    byteStep m s b = m.entry 0 (lowByte s ^^^ b) ^^^ (s >>> 8) := by
  rw [byteStep, lowByte_xor_zext64]

/-- Every row of the built table is zero at index 0. -/
theorem entry_builtTable_index_zero {k : Nat} (hk : k < 8) : builtTable.entry k 0#8 = 0#64 :=
  (Memory.entry_builtTable 0 hk).trans (builtEntry_index_zero k)

/-- Row 0 and the shift are each linear, so the byte step is, in the state and the byte together. -/
theorem byteStep_builtTable_xor (s t : Word) (b c : Byte) :
    byteStep builtTable (s ^^^ t) (b ^^^ c) =
      byteStep builtTable s b ^^^ byteStep builtTable t c := by
  simp only [byteStep, entry_builtTable_row0, lowByte_xor, lowByte_zext64, row0_xor,
    BitVec.ushiftRight_xor_distrib]
  ac_rfl

/-- A byte that equals the low byte of the state selects entry 0, which leaves the shift alone. -/
theorem byteStep_builtTable_lowByte (s : Word) : byteStep builtTable s (lowByte s) = s >>> 8 := by
  simp [byteStep_eq_entry, entry_builtTable_index_zero]

/-- Settles O24, from the index of the byte step and its linearity on the built table. -/
theorem byteStepFoldsOneByte : Obligations.ByteStepFoldsOneByte :=
  ⟨byteStep_eq_entry, byteStep_builtTable_lowByte, byteStep_builtTable_xor⟩

/-! ### REF (rule R61) -/

@[simp] theorem ref_nil (m : Memory) (s : Word) : ref m s [] = s := rfl

theorem ref_cons (m : Memory) (s : Word) (b : Byte) (q : List Byte) :
    ref m s (b :: q) = ref m (byteStep m s b) q := rfl

theorem ref_append (m : Memory) (s : Word) (p q : List Byte) :
    ref m s (p ++ q) = ref m (ref m s p) q := by
  simp only [ref_eq_foldl, List.foldl_append]

/-- On the built table zero bytes keep a zero state at zero. -/
theorem ref_builtTable_zeros (n : Nat) : ref builtTable 0 (List.replicate n 0) = 0 := by
  induction n with
  | zero => rfl
  | succ n ih =>
    have hstep : byteStep builtTable 0 0 = 0 :=
      (byteStep_zeroState builtTable 0).trans (entry_builtTable_index_zero (by decide))
    rw [List.replicate_succ, ref_cons, hstep, ih]

/-- Settles O25: REF is a left fold of the byte step, which a zero byte keeps at zero. -/
theorem referenceComposes : Obligations.ReferenceComposes :=
  ⟨ref_nil, ref_cons, ref_append, ref_builtTable_zeros,
    byteStep_zeroState builtTable⟩

/-- A term of the state goes through the reference apart from the rest, as if on zero bytes. -/
theorem ref_builtTable_xor (s t : Word) (q : List Byte) :
    ref builtTable (s ^^^ t) q =
      ref builtTable s (List.replicate q.length 0) ^^^ ref builtTable t q := by
  induction q generalizing s t with
  | nil => rfl
  | cons b q ih =>
    have hstep : byteStep builtTable (s ^^^ t) b =
        byteStep builtTable s 0 ^^^ byteStep builtTable t b := by
      simpa using byteStep_builtTable_xor s t 0 b
    rw [ref_cons, hstep, ih, List.length_cons, List.replicate_succ, ref_cons, ref_cons]

/-- The first of at most eight bytes contributes one entry, of the row that counts the bytes after
it, and the rest of the input meets the shifted state. -/
theorem ref_builtTable_cons (s : Word) (d : Byte) {q : List Byte} (hq : q.length < 8) :
    ref builtTable s (d :: q) =
      builtTable.entry q.length (lowByte s ^^^ d) ^^^ ref builtTable (s >>> 8) q := by
  rw [ref_cons, byteStep_eq_entry, ref_builtTable_xor, entry_builtTable_eq_ref _ hq, ref_cons,
    byteStep_zeroState]

/-! ### SLICE8 (rule R62, rule R70) -/

theorem lowByte_ushiftRight (s : Word) (k : Nat) : lowByte (s >>> k) = s.extractLsb' k 8 :=
  BitVec.eq_of_toNat_eq (by simp [BitVec.extractLsb'_toNat])

/-- The index of lane i is byte i of the state against the input byte. -/
theorem lane_eq (s : Word) (i : Nat) (d : Byte) : lane s i d = s.extractLsb' (8 * i) 8 ^^^ d := by
  rw [lane, lowByte_xor_zext64, lowByte_ushiftRight]

/-- Settles O26: each lane is a byte of the state against an input byte, and where the two are equal
the eight lanes select index 0, where every row of the built table is zero. -/
theorem sliceCombinesEightRows : Obligations.SliceCombinesEightRows := by
  refine ⟨fun m s d0 d1 d2 d3 d4 d5 d6 d7 => ?_, fun s => ?_⟩
  · simp only [slice8, lane_eq, Nat.reduceMul]
  · simp [slice8, lane_eq, entry_builtTable_index_zero]

/-- One bulk round is eight byte steps: each byte in turn leaves its lane's entry and shifts the
state, and after eight shifts nothing of the state is left. -/
theorem slice8_builtTable_eq_ref (s : Word) (d0 d1 d2 d3 d4 d5 d6 d7 : Byte) :
    slice8 builtTable s d0 d1 d2 d3 d4 d5 d6 d7 =
      ref builtTable s [d0, d1, d2, d3, d4, d5, d6, d7] := by
  have hout : s >>> 64 = 0 := BitVec.ushiftRight_eq_zero (le_refl 64)
  simp [ref_builtTable_cons, slice8, lane, ← BitVec.shiftRight_add, BitVec.xor_assoc, hout]

/-! ### Phase 1 (rule R65) -/

/-- How many bytes lie between a position and the next multiple of 8. -/
def bytesToBoundary (pos : Nat) : Nat := (8 - pos % 8) % 8

theorem bytesToBoundary_of_aligned {pos : Nat} (h : pos % 8 = 0) : bytesToBoundary pos = 0 := by
  simp [bytesToBoundary, h]

theorem bytesToBoundary_of_unaligned {pos : Nat} (h : pos % 8 ≠ 0) :
    bytesToBoundary pos = bytesToBoundary (pos + 1) + 1 := by
  unfold bytesToBoundary
  omega

theorem bytesToBoundary_offset (a : Fin 8) : bytesToBoundary a.val = (8 - a.val) % 8 := by
  rw [bytesToBoundary, Nat.mod_eq_of_lt a.isLt]

/-- Phase 1 is the reference on the bytes up to the next multiple of 8, from any cursor. -/
theorem phase1_eq (m : Memory) (a cur : Nat) (s : Word) (p : List Byte) :
    phase1 m a cur s p =
      ⟨cur + min p.length (bytesToBoundary (a + cur)),
        ref m s (p.take (bytesToBoundary (a + cur))), p.drop (bytesToBoundary (a + cur))⟩ := by
  induction p generalizing cur s with
  | nil => simp [phase1]
  | cons b q ih =>
    by_cases h : (a + cur) % 8 = 0
    · simp [phase1, h, bytesToBoundary_of_aligned h]
    · rw [phase1, if_pos h, ih, bytesToBoundary_of_unaligned h, ← Nat.add_assoc]
      simp only [List.length_cons, List.take_succ_cons, List.drop_succ_cons, ref_cons,
        Nat.add_min_add_right, Nat.add_assoc, Nat.add_comm 1]

/-- Where phase 1 of UPDATE stands: the bytes that rule R65 counts are folded in. -/
theorem afterPhase1_eq (m : Memory) (s : Word) (p : List Byte) (a : Fin 8) :
    afterPhase1 m s p a =
      ⟨min p.length ((8 - a.val) % 8), ref m s (p.take ((8 - a.val) % 8)),
        p.drop ((8 - a.val) % 8)⟩ := by
  simp [afterPhase1, phase1_eq, bytesToBoundary_offset]

/-- Settles O28, from where phase 1 stands. -/
theorem phase1ConsumesPrefix : Obligations.Phase1ConsumesPrefix := fun m s p a => by
  simp [afterPhase1_eq]

/-- Phase 1 leaves to the reference what it has not folded in itself. -/
theorem ref_afterPhase1 (m : Memory) (s : Word) (p : List Byte) (a : Fin 8) :
    ref m (afterPhase1 m s p a).s (afterPhase1 m s p a).rest = ref m s p := by
  rw [afterPhase1_eq, ← ref_append, List.take_append_drop]

/-- The bytes that phase 1 leaves are those from the cursor on. -/
theorem afterPhase1_rest (m : Memory) (s : Word) (p : List Byte) (a : Fin 8) :
    (afterPhase1 m s p a).rest = p.drop (afterPhase1 m s p a).cur := by
  rw [afterPhase1_eq]
  rcases Nat.le_total p.length ((8 - a.val) % 8) with h | h
  · simp [h]
  · simp [h]

/-! ### Phase 2 (rule R66) -/

theorem phase2_of_round (m : Memory) (cur : Nat) (s : Word) (d0 d1 d2 d3 d4 d5 d6 d7 : Byte)
    (q : List Byte) :
    phase2 m cur s (d0 :: d1 :: d2 :: d3 :: d4 :: d5 :: d6 :: d7 :: q) =
      phase2 m (cur + 8) (slice8 m s d0 d1 d2 d3 d4 d5 d6 d7) q := rfl

theorem phase2_of_short (m : Memory) (cur : Nat) (s : Word) {q : List Byte} (h : q.length < 8) :
    phase2 m cur s q = ⟨cur, s, q⟩ := by
  unfold phase2
  split
  · simp only [List.length_cons] at h
    omega
  · rfl

/-- A list from which no round can be taken has fewer than 8 bytes. -/
theorem length_lt_eight_of_no_round {q : List Byte}
    (h : ∀ (d0 d1 d2 d3 d4 d5 d6 d7 : Byte) (r : List Byte),
      q = d0 :: d1 :: d2 :: d3 :: d4 :: d5 :: d6 :: d7 :: r → False) : q.length < 8 :=
  match q with
  | [] | [_] | [_, _] | [_, _, _] | [_, _, _, _] | [_, _, _, _, _] | [_, _, _, _, _, _]
  | [_, _, _, _, _, _, _] => by simp
  | d0 :: d1 :: d2 :: d3 :: d4 :: d5 :: d6 :: d7 :: r =>
    (h d0 d1 d2 d3 d4 d5 d6 d7 r rfl).elim

/-- Phase 2 advances the cursor by 8 for each whole round in its input, and drops those bytes. -/
theorem phase2_cur_rest (m : Memory) (cur : Nat) (s : Word) (q : List Byte) :
    (phase2 m cur s q).cur = cur + 8 * (q.length / 8) ∧
      (phase2 m cur s q).rest = q.drop (8 * (q.length / 8)) := by
  fun_induction phase2 m cur s q with
  | case1 cur s d0 d1 d2 d3 d4 d5 d6 d7 q ih =>
    obtain ⟨hcur, hrest⟩ := ih
    have hrounds : (d0 :: d1 :: d2 :: d3 :: d4 :: d5 :: d6 :: d7 :: q).length / 8 =
        q.length / 8 + 1 := Nat.add_div_right q.length (Nat.succ_pos 7)
    rw [hcur, hrest, hrounds, Nat.mul_add]
    exact ⟨by omega, rfl⟩
  | case2 cur s q hno =>
    have hdiv : q.length / 8 = 0 := Nat.div_eq_of_lt (length_lt_eight_of_no_round hno)
    simp [hdiv]

/-- On the built table phase 2 leaves to the reference what it has not folded in itself. -/
theorem ref_phase2_builtTable (cur : Nat) (s : Word) (q : List Byte) :
    ref builtTable (phase2 builtTable cur s q).s (phase2 builtTable cur s q).rest =
      ref builtTable s q := by
  fun_induction phase2 builtTable cur s q with
  | case1 cur s d0 d1 d2 d3 d4 d5 d6 d7 q ih =>
    rw [ih, slice8_builtTable_eq_ref]
    rfl
  | case2 => rfl

theorem afterPhase2_cur_rest (m : Memory) (s : Word) (p : List Byte) (a : Fin 8) :
    (afterPhase2 m s p a).cur = (afterPhase1 m s p a).cur
        + 8 * ((afterPhase1 m s p a).rest.length / 8) ∧
      (afterPhase2 m s p a).rest =
        (afterPhase1 m s p a).rest.drop (8 * ((afterPhase1 m s p a).rest.length / 8)) :=
  phase2_cur_rest m _ _ _

/-- Where phase 1 leaves fewer than 8 bytes, phase 2 runs no round. -/
theorem afterPhase2_of_short {m : Memory} {s : Word} {p : List Byte} {a : Fin 8}
    (h : (afterPhase1 m s p a).rest.length < 8) : afterPhase2 m s p a = afterPhase1 m s p a :=
  phase2_of_short m _ _ h

/-- Phase 2 leaves the remainder of the bytes after phase 1 modulo 8. -/
theorem afterPhase2_rest_length (m : Memory) (s : Word) (p : List Byte) (a : Fin 8) :
    (afterPhase2 m s p a).rest.length = (p.length - (afterPhase1 m s p a).cur) % 8 := by
  rw [(afterPhase2_cur_rest m s p a).2, afterPhase1_rest, List.length_drop, List.length_drop]
  omega

/-- Settles O29, from the cursor and the rest after phase 2, which count on from phase 1. -/
theorem phase2RunsWholeRounds : Obligations.Phase2RunsWholeRounds := by
  refine ⟨phase2_of_round, fun m cur s q => phase2_of_short m cur s, fun m s p a => ?_⟩
  obtain ⟨hcur, hrest⟩ := afterPhase2_cur_rest m s p a
  refine ⟨?_, ?_, ?_⟩
  · rw [hcur, afterPhase1_rest, List.length_drop]
  · rw [hcur, hrest, afterPhase1_rest, List.drop_drop]
  · rw [afterPhase2_rest_length]
    exact Nat.mod_lt _ (by decide)

/-! ### Phase 3 (rule R67, rule R69) -/

/-- Phase 3 is the reference on all that is left, from any cursor. -/
theorem phase3_eq (m : Memory) (cur : Nat) (s : Word) (q : List Byte) :
    phase3 m cur s q = ⟨cur + q.length, ref m s q, []⟩ := by
  induction q generalizing cur s with
  | nil => rfl
  | cons b q ih =>
    rw [phase3, ih, ref_cons, List.length_cons, Nat.add_assoc, Nat.add_comm 1]

theorem afterPhase3_eq (m : Memory) (s : Word) (p : List Byte) (a : Fin 8) :
    afterPhase3 m s p a =
      ⟨(afterPhase2 m s p a).cur + (afterPhase2 m s p a).rest.length,
        ref m (afterPhase2 m s p a).s (afterPhase2 m s p a).rest, []⟩ :=
  phase3_eq m _ _ _

/-- UPDATE is the reference on what phase 2 leaves. -/
theorem update_eq_ref_afterPhase2 (m : Memory) (s : Word) (p : List Byte) (a : Fin 8) :
    update m s p a = ref m (afterPhase2 m s p a).s (afterPhase2 m s p a).rest := by
  rw [update, afterPhase3_eq]

/-- The three phases consume every byte once. -/
theorem afterPhase3_cur (m : Memory) (s : Word) (p : List Byte) (a : Fin 8) :
    (afterPhase3 m s p a).cur = p.length := by
  have hle : (afterPhase1 m s p a).cur ≤ p.length := by simp [afterPhase1_eq]
  have hlen : (afterPhase1 m s p a).rest.length = p.length - (afterPhase1 m s p a).cur := by
    rw [afterPhase1_rest, List.length_drop]
  simp only [afterPhase3_eq, afterPhase2_cur_rest, List.length_drop, hlen]
  omega

/-- Settles O30, from phase 3 as the reference on the remainder that phase 2 leaves. -/
theorem phase3ConsumesRemainder : Obligations.Phase3ConsumesRemainder := fun m s p a =>
  ⟨update_eq_ref_afterPhase2 m s p a, afterPhase2_rest_length m s p a, afterPhase3_cur m s p a,
    by rw [afterPhase3_eq]⟩

/-! ### Short inputs (rule R68) -/

/-- Where phase 1 leaves fewer than 8 bytes, UPDATE is the reference on any table. -/
theorem update_of_short {m : Memory} {s : Word} {p : List Byte} {a : Fin 8}
    (h : (afterPhase1 m s p a).rest.length < 8) : update m s p a = ref m s p := by
  rw [update_eq_ref_afterPhase2, afterPhase2_of_short h, ref_afterPhase1]

theorem afterPhase1_of_le (m : Memory) (s : Word) {p : List Byte} {a : Fin 8}
    (h : p.length ≤ (8 - a.val) % 8) : afterPhase1 m s p a = ⟨p.length, ref m s p, []⟩ := by
  rw [afterPhase1_eq, Nat.min_eq_left h, List.take_of_length_le h, List.drop_of_length_le h]

theorem afterPhase1_offset_zero (m : Memory) (s : Word) (p : List Byte) :
    afterPhase1 m s p 0 = ⟨0, s, p⟩ := by
  simp [afterPhase1_eq]

/-- Settles O31: in each case phase 1 leaves fewer than 8 bytes, so no round runs. -/
theorem shortInputsTakeNoRound : Obligations.ShortInputsTakeNoRound := by
  refine ⟨fun m s a => ⟨rfl, rfl⟩, fun m s p a h => ?short, fun m s p h => ?aligned⟩
  case short =>
    have hp := afterPhase1_of_le m s h
    exact ⟨hp, update_of_short (by simp [hp])⟩
  case aligned =>
    have hp := afterPhase1_offset_zero m s p
    have hshort : (afterPhase1 m s p 0).rest.length < 8 := by rwa [hp]
    exact ⟨(afterPhase2_of_short hshort).trans hp, update_of_short hshort⟩

/-! ### UPDATE and the reference (rule R70, rule R71, rule R72) -/

/-- On the built table each phase leaves to the reference what it has not folded in itself, so the
three together are the reference. -/
theorem update_builtTable_eq_ref (s : Word) (p : List Byte) (a : Fin 8) :
    update builtTable s p a = ref builtTable s p :=
  calc update builtTable s p a
      = ref builtTable (afterPhase2 builtTable s p a).s (afterPhase2 builtTable s p a).rest :=
        update_eq_ref_afterPhase2 builtTable s p a
    _ = ref builtTable (afterPhase1 builtTable s p a).s (afterPhase1 builtTable s p a).rest :=
        ref_phase2_builtTable _ _ _
    _ = ref builtTable s p := ref_afterPhase1 builtTable s p a

/-- Settles O32, from the bulk round as eight byte steps and the reference carried through the
phases. -/
theorem slicingEqualsReference : Obligations.SlicingEqualsReference :=
  ⟨slice8_builtTable_eq_ref, update_builtTable_eq_ref⟩

/-- Settles O33: the reference has no offset. -/
theorem placementNeverMatters : Obligations.PlacementNeverMatters := fun s p a a' => by
  rw [update_builtTable_eq_ref, update_builtTable_eq_ref]

/-- Settles O34: the reference composes over concatenation. -/
theorem updatesCompose : Obligations.UpdatesCompose := fun s p q a1 a2 a3 => by
  simp only [update_builtTable_eq_ref, ref_append]

end Sys2Proof.Machine
end

section
/-! PROOFS. The Accumulator (42_accumulator.md): what an operation does at its accumulator when it
runs and when it holds, the big-endian output read back, and runs of several operations on the
built table. -/

namespace Sys2Proof.Machine

/-! ### One operation that runs (rule R75 to rule R79) -/

theorem newCrc_of_reader {op : Instr} (h : writesState op = false) (m : Memory) (crc : Word) :
    newCrc op m crc = crc := by
  cases op with
  | write => cases h
  | reset => cases h
  | build | sum | size | blockSize => rfl

/-- In a built state of the invariant an operation reads the built table (rule R34). -/
theorem State.Inv.table_eq {s : State} (hinv : s.Inv) (hv : s.tableValid = true) :
    s.table = builtTable := by
  obtain ⟨⟨-, htable⟩, -⟩ := hinv
  exact htable hv

theorem exec_reset_ready {s : State} {k : Nat} {acc : Acc} (hv : s.tableValid = true)
    (ha : s.accs[k]? = some acc) :
    exec (.reset k) s = .next (s.setAcc k { acc with crc := 0 }) := by
  rw [exec_ready rfl hv ha]
  simp [Acc.complete, newCrc, resultOf]

/-! ### One operation that holds (rule R94) -/

theorem sameBlock_of_exec_unbuilt {s : State} {op : Instr} {k : Nat} {acc : Acc}
    (hop : op.acc? = some k) (ha : s.accs[k]? = some acc) (hv : s.tableValid = false) (t : State)
    (h : exec op s = .next t) : t.SameBlock s := by
  rw [exec_held hop hv ha] at h
  cases h
  exact sameBlock_hold op ha

/-! ### The frame of an accumulator operation (rule R84) -/

/-- Run or held, an accumulator operation replaces its own accumulator by one in which no result and
nothing in progress is lost, and whose STATE a reader leaves as it was. -/
theorem exec_acc_next {s t : State} {op : Instr} {k : Nat} {acc : Acc} (hop : op.acc? = some k)
    (ha : s.accs[k]? = some acc) (h : exec op s = .next t) :
    ∃ acc', t = s.setAcc k acc' ∧ (writesState op = false → acc'.crc = acc.crc) ∧
      acc.returned <+: acc'.returned ∧ acc.inProgress <:+ acc'.inProgress := by
  cases hv : s.tableValid with
  | true =>
    rw [exec_ready hop hv ha] at h
    cases h
    exact ⟨_, rfl, fun hr => newCrc_of_reader hr _ _, List.prefix_append _ _, List.suffix_refl _⟩
  | false =>
    rw [exec_held hop hv ha] at h
    cases h
    exact ⟨_, rfl, fun _ => rfl, List.prefix_refl _, List.suffix_cons _ _⟩

/-! ### The statements about one operation -/

/-- Settles O35: the run of WRITE is its completion, and under the invariant it reads the built table,
on which UPDATE is REF. -/
theorem writeCompletes : Obligations.WriteCompletes := by
  refine fun s k acc p a ha => ⟨fun hv => ⟨exec_ready rfl hv ha, fun hinv => ?_⟩,
    sameBlock_of_exec_unbuilt rfl ha⟩
  rw [hinv.table_eq hv, update_builtTable_eq_ref]

/-- Settles O36: SUM runs with STATE as it was, or holds. -/
theorem sumCompletes : Obligations.SumCompletes := fun _ _ _ _ ha =>
  ⟨fun hv => exec_ready rfl hv ha, sameBlock_of_exec_unbuilt rfl ha⟩

/-- Settles O37: RESET runs with STATE zero, or holds. -/
theorem resetCompletes : Obligations.ResetCompletes := fun _ _ _ ha =>
  ⟨fun hv => exec_reset_ready hv ha, sameBlock_of_exec_unbuilt rfl ha⟩

/-- Settles O38: SIZE and BLOCKSIZE run with STATE as it was, or hold. -/
theorem sizeAndBlockSizeComplete : Obligations.SizeAndBlockSizeComplete := fun _ _ _ ha =>
  ⟨fun hv => ⟨exec_ready rfl hv ha, exec_ready rfl hv ha⟩,
    fun hv t => ⟨sameBlock_of_exec_unbuilt rfl ha hv t, sameBlock_of_exec_unbuilt rfl ha hv t⟩⟩

/-- Settles O40: the next state differs from the old one in the operation's accumulator only. -/
theorem accumulatorOperationFrame : Obligations.AccumulatorOperationFrame := by
  intro s t op k acc hop ha h
  obtain ⟨acc', rfl, hcrc, hret, hprog⟩ := exec_acc_next hop ha h
  exact ⟨fun _ => rfl, rfl, rfl, rfl, rfl, by simp,
    fun j hj => State.setAcc_get_other s acc' hj.symm,
    acc', State.setAcc_get_same acc' ha, hcrc, hret, hprog⟩

theorem crc_of_reset_acc {k : Nat} {acc : Acc} (h : State.reset.accs[k]? = some acc) :
    acc.crc = 0 := by
  have hmem : acc ∈ List.replicate Config.nAcc Acc.fresh := List.mem_of_getElem? h
  rw [List.eq_of_mem_replicate hmem, Acc.fresh_crc]

theorem be8_zero : be8 0 = [0, 0, 0, 0, 0, 0, 0, 0] := by decide

/-- Settles O42, from the completions of RESET, of the empty WRITE, on which UPDATE leaves STATE as it
was, and of SUM. -/
theorem zeroAndIdentity : Obligations.ZeroAndIdentity := by
  refine ⟨fun _ _ => crc_of_reset_acc, fun s k acc hv ha => ?reset, fun s k acc a hv ha => ?write,
    fun s k acc pre hv ha hz => ?sum⟩
  case reset => exact ⟨_, _, exec_reset_ready hv ha, State.setAcc_get_same _ ha, rfl⟩
  case write =>
    obtain ⟨hrun, -⟩ := (writeCompletes s k acc [] a ha).1 hv
    exact hrun
  case sum =>
    have hrun := (sumCompletes s k acc pre ha).1 hv
    have hout : be8 acc.crc = be8 0 := by rw [hz]
    rwa [hout, be8_zero] at hrun

/-! ### The output of SUM read back (rule R30, rule R82) -/

/-- The bytes of BE8 are the base-256 digits of STATE, most significant first. -/
theorem beValue_be8 (s : Word) : beValue (be8 s) = s.toNat := by
  have hs := s.isLt
  simp only [beValue, be8, List.foldl, lowByte_toNat, BitVec.toNat_ushiftRight,
    Nat.shiftRight_eq_div_pow]
  omega

theorem be8_injective : Function.Injective be8 := fun x y h =>
  BitVec.eq_of_toNat_eq (by rw [← beValue_be8 x, h, beValue_be8])

/-- Settles O44: the bytes after those of the operand are BE8 of STATE, and BE8 read big-endian is
STATE. -/
theorem sumRoundTrip : Obligations.SumRoundTrip := by
  refine ⟨fun s k acc pre hv ha => ?_, fun x y pre h => be8_injective (List.append_cancel_left h)⟩
  exact ⟨_, _, pre ++ be8 acc.crc, (sumCompletes s k acc pre ha).1 hv, State.setAcc_get_same _ ha,
    rfl, by simp, by simp, by simp [beValue_be8]⟩

/-! ### Runs of several operations on the built table (rule R81, rule R83) -/

/-- The block is built, and accumulator `k` is `acc`. -/
structure State.BuiltAt (s : State) (k : Nat) (acc : Acc) : Prop where
  table : s.table = builtTable
  valid : s.tableValid = true
  get : s.accs[k]? = some acc

/-- The accumulator after an operation of it has run on the built table. -/
def Acc.after (acc : Acc) (op : Instr) : Acc :=
  acc.complete (newCrc op builtTable acc.crc) (resultOf op acc.crc)

theorem State.Inv.builtAt {s : State} {k : Nat} {acc : Acc} (hinv : s.Inv)
    (hv : s.tableValid = true) (ha : s.accs[k]? = some acc) : s.BuiltAt k acc :=
  ⟨hinv.table_eq hv, hv, ha⟩

/-- In a built block an operation runs at its accumulator, and the block stays built. -/
theorem State.BuiltAt.exec_next {s : State} {k : Nat} {acc : Acc} (h : s.BuiltAt k acc) {op : Instr}
    (hop : op.acc? = some k) : ∃ t, exec op s = .next t ∧ t.BuiltAt k (acc.after op) := by
  obtain ⟨htable, hv, ha⟩ := h
  refine ⟨_, exec_ready hop hv ha, ?_⟩
  rw [htable]
  exact ⟨htable, hv, State.setAcc_get_same _ ha⟩

theorem Acc.after_crc_of_reader (acc : Acc) {op : Instr} (h : writesState op = false) :
    (acc.after op).crc = acc.crc := newCrc_of_reader h builtTable acc.crc

@[simp] theorem Acc.after_reset_crc (acc : Acc) (k : Nat) : (acc.after (.reset k)).crc = 0 := rfl

@[simp] theorem Acc.after_write_crc (acc : Acc) (k : Nat) (p : List Byte) (a : Fin 8) :
    (acc.after (.write k p a)).crc = ref builtTable acc.crc p :=
  update_builtTable_eq_ref acc.crc p a

@[simp] theorem Acc.after_write_last (acc : Acc) (k : Nat) (p : List Byte) (a : Fin 8) :
    (acc.after (.write k p a)).returned.getLast? = some (.count p.length) :=
  List.getLast?_concat

@[simp] theorem Acc.after_sum_last (acc : Acc) (k : Nat) (pre : List Byte) :
    (acc.after (.sum k pre)).returned.getLast? = some (.bytes (pre ++ be8 acc.crc)) :=
  List.getLast?_concat

/-- The output of SUM depends on its operand and STATE alone. -/
theorem Acc.after_sum_last_congr {b c : Acc} (h : b.crc = c.crc) (k j : Nat) (pre : List Byte) :
    (b.after (.sum k pre)).returned.getLast? = (c.after (.sum j pre)).returned.getLast? := by
  rw [Acc.after_sum_last, Acc.after_sum_last, h]

/-- A WRITE that meets the STATE of a WRITE before it ends as one WRITE of the joined bytes, whatever
else has changed there: REF composes and has no offset. -/
theorem Acc.after_write_crc_append {acc b : Acc} {k : Nat} {x : List Byte} {a1 : Fin 8}
    (h : b.crc = (acc.after (.write k x a1)).crc) (y : List Byte) (a2 a3 : Fin 8) :
    (b.after (.write k y a2)).crc = (acc.after (.write k (x ++ y) a3)).crc := by
  simp only [Acc.after_write_crc, h, ref_append]

/-- Settles O43: RESET leaves the zero STATE of the fresh accumulator, and from there both runs fold
the same bytes by REF, which has no offset. -/
theorem noResidualLeakage : Obligations.NoResidualLeakage := by
  intro s u k j acc new x pre a a' hs hu hvs hvu hacc hnew hzero
  obtain ⟨s1, hreset, hs1⟩ := (hs.builtAt hvs hacc).exec_next (op := .reset k) rfl
  obtain ⟨s2, hwrite, hs2⟩ := hs1.exec_next (op := .write k x a) rfl
  obtain ⟨s3, hsum, hs3⟩ := hs2.exec_next (op := .sum k pre) rfl
  obtain ⟨u1, hwrite', hu1⟩ := (hu.builtAt hvu hnew).exec_next (op := .write j x a') rfl
  obtain ⟨u2, hsum', hu2⟩ := hu1.exec_next (op := .sum j pre) rfl
  have hcrc : ((acc.after (.reset k)).after (.write k x a)).crc =
      (new.after (.write j x a')).crc := by
    rw [Acc.after_write_crc, Acc.after_write_crc, Acc.after_reset_crc, hzero]
  exact ⟨s1, s2, s3, u1, u2, _, _, hreset, hwrite, hsum, hwrite', hsum', hs3.get, hu2.get,
    hcrc, Acc.after_sum_last_congr hcrc k j pre⟩

/-- Settles O45: REF composes over concatenation, so both runs reach one STATE, and a reader between
the two WRITEs hands the second the STATE it found. -/
theorem writesCompose : Obligations.WritesCompose := by
  intro s k acc x y pre a1 a2 a3 hinv hv hacc
  have hs := hinv.builtAt hv hacc
  obtain ⟨s1, hx, hs1⟩ := hs.exec_next (op := .write k x a1) rfl
  obtain ⟨s2, hy, hs2⟩ := hs1.exec_next (op := .write k y a2) rfl
  obtain ⟨s3, hsum, hs3⟩ := hs2.exec_next (op := .sum k pre) rfl
  obtain ⟨u1, hxy, hu1⟩ := hs.exec_next (op := .write k (x ++ y) a3) rfl
  obtain ⟨u2, hsum', hu2⟩ := hu1.exec_next (op := .sum k pre) rfl
  have hcrc := Acc.after_write_crc_append (acc := acc) (k := k) (x := x) (a1 := a1) rfl y a2 a3
  refine ⟨s1, s2, s3, u1, u2, _, _, _, _, _, hx, hy, hsum, hxy, hsum', hs1.get, hs2.get, hs3.get,
    hu1.get, hu2.get, hcrc, hcrc, Acc.after_sum_last_congr hcrc k k pre,
    Acc.after_write_last .., Acc.after_write_last .., by simp, fun mid hmid hreader => ?between⟩
  case between =>
    obtain ⟨v1, hread, hv1⟩ := hs1.exec_next hmid
    obtain ⟨v2, hy', hv2⟩ := hv1.exec_next (op := .write k y a2) rfl
    obtain ⟨v3, hsum'', hv3⟩ := hv2.exec_next (op := .sum k pre) rfl
    have hkept := (acc.after (.write k x a1)).after_crc_of_reader hreader
    have hcrc' := Acc.after_write_crc_append hkept y a2 a3
    exact ⟨v1, v2, v3, _, _, _, hread, hy', hsum'', hv1.get, hv2.get, hv3.get, hkept, hcrc',
      Acc.after_sum_last_congr hcrc' k k pre, Acc.after_write_last ..⟩

end Sys2Proof.Machine
end

section
/-! PROOFS. The order of the entry writes (40_table_builder.md, rule R53, rule R57, rule R58) and
the combined word of a round (rule R63): every admissible order of writes lists the built value at
every place, and a canonical table space is fixed by what it lists. -/

namespace Sys2Proof.Machine

/-! ### A canonical table space is fixed by what it lists -/

/-- A table space whose addresses rise from `lo` lists nothing below `lo`. -/
theorem Memory.find?_below {m : Memory} {lo a : Nat} (h : Memory.risingFrom lo m = true)
    (ha : a < lo) : m.find? a = none := by
  induction m generalizing lo with
  | nil => rfl
  | cons e m ih =>
    obtain ⟨b, v⟩ := e
    simp only [Memory.risingFrom, Bool.and_eq_true, decide_eq_true_eq] at h
    obtain ⟨hlo, hrest⟩ := h
    rw [Memory.find?, if_neg (by omega), ih hrest (by omega)]

/-- Two rising lists that list the same entries start at the same address, with the same entry, and
go on alike. -/
theorem Memory.eq_of_find?_eq {m m' : Memory} {lo lo' : Nat} (h : Memory.risingFrom lo m = true)
    (h' : Memory.risingFrom lo' m' = true) (heq : ∀ a, m.find? a = m'.find? a) : m = m' := by
  induction m generalizing m' lo lo' with
  | nil =>
    cases m' with
    | nil => rfl
    | cons e m' => simpa [Memory.find?] using heq e.1
  | cons e m ih =>
    obtain ⟨a, v⟩ := e
    cases m' with
    | nil => simpa [Memory.find?] using heq a
    | cons e' m' =>
      obtain ⟨b, w⟩ := e'
      simp only [Memory.risingFrom, Bool.and_eq_true, decide_eq_true_eq] at h h'
      obtain ⟨-, hm⟩ := h
      obtain ⟨-, hm'⟩ := h'
      have hhead : a = b := by
        by_contra hne
        rcases Nat.lt_or_gt_of_ne hne with hlt | hgt
        · simpa [Memory.find?, hne, Memory.find?_below hm' (Nat.lt_succ_of_lt hlt)] using heq a
        · simpa [Memory.find?, Ne.symm hne, Memory.find?_below hm (Nat.lt_succ_of_lt hgt)]
            using heq b
      subst hhead
      have hentry : v = w := by simpa [Memory.find?] using heq a
      have htail (c : Nat) : Memory.find? m c = Memory.find? m' c := by
        by_cases hc : c = a
        · rw [Memory.find?_below hm (by omega), Memory.find?_below hm' (by omega)]
        · simpa [Memory.find?, hc] using heq c
      rw [hentry, ih hm hm' htail]

/-- Every address of the table space is that of an entry (rule R26). -/
theorem exists_tableAddr_eq {a : Nat} (ha : a < Config.rows * Config.rowEntries) :
    ∃ k n, k < Config.rows ∧ tableAddr k n = a := by
  refine ⟨a / 256, BitVec.ofNat 8 a, Nat.div_lt_of_lt_mul (by rwa [Nat.mul_comm]), ?_⟩
  simp only [tableAddr, Config.rowEntries, BitVec.toNat_ofNat]
  omega

/-! ### The places that hold their built value -/

/-- Every place of the list is written in the table space, with its built value. -/
def Memory.Lists (m : Memory) (places : List (Nat × Byte)) : Prop :=
  ∀ e ∈ places, m.find? (tableAddr e.1 e.2) = some (builtEntry e.1 e.2)

theorem Memory.Lists.entry {m : Memory} {places : List (Nat × Byte)} (h : m.Lists places) {k : Nat}
    {n : Byte} (hmem : (k, n) ∈ places) : m.entry k n = builtEntry k n := by
  rw [Memory.entry, Memory.read, h _ hmem, Option.getD_some]

/-- A built value written at its place joins those listed, and every listed place keeps its own. -/
theorem Memory.Lists.setEntry {m : Memory} {places : List (Nat × Byte)} (h : m.Lists places)
    (k : Nat) (n : Byte) : (m.setEntry k n (builtEntry k n)).Lists (places ++ [(k, n)]) := by
  rintro ⟨j, i⟩ hmem
  rw [Memory.setEntry, Memory.find?_write]
  split_ifs with haddr
  · obtain ⟨rfl, rfl⟩ := tableAddr_inj haddr
    rfl
  · have hold : (j, i) ∈ places := by
      rcases List.mem_append.mp hmem with hold | hnew
      · exact hold
      · cases List.mem_singleton.mp hnew
        exact absurd rfl haddr
    exact h _ hold

/-- A canonical table space that lists every place is the built table. -/
theorem Memory.Lists.eq_builtTable {m : Memory} {places : List (Nat × Byte)} (h : m.Lists places)
    (hwf : m.wf = true) (hall : ∀ (k : Nat) (n : Byte), k < 8 → (k, n) ∈ places) :
    m = builtTable := by
  have hfind (a : Nat) : m.find? a = builtTable.find? a := by
    by_cases ha : a < Config.rows * Config.rowEntries
    · obtain ⟨k, n, hk, rfl⟩ := exists_tableAddr_eq ha
      rw [h _ (hall k n hk), Memory.find?_builtTable n hk]
    · have ha := Nat.le_of_not_lt ha
      rw [Memory.find?_beyond hwf ha, Memory.find?_beyond Memory.wf_builtTable ha]
  have hwf' := Memory.wf_builtTable
  simp only [Memory.wf, Bool.and_eq_true] at hwf hwf'
  exact Memory.eq_of_find?_eq hwf.1 hwf'.1 hfind

/-! ### Admissible orders of entry writes (rule R57) -/

/-- The places that the write at (k, n) reads are in the list: none for row 0; for row `k + 1` the
place (k, n) and the row-0 place that its built value selects. -/
def Ready (done : List (Nat × Byte)) : Nat × Byte → Prop
  | (0, _) => True
  | (k + 1, n) => (k, n) ∈ done ∧ (0, lowByte (builtEntry k n)) ∈ done

/-- Every write of the list comes after those that it reads. -/
def Admissible (order : List (Nat × Byte)) : Prop :=
  ∀ done later e, order = done ++ e :: later → Ready done e

/-- Before the last write of an admissible order the order is admissible, and that write is
ready. -/
theorem Admissible.of_concat {order : List (Nat × Byte)} {e : Nat × Byte}
    (h : Admissible (order ++ [e])) : Admissible order ∧ Ready order e := by
  refine ⟨fun done later f hf => h done (later ++ [e]) f ?_, h order [] e rfl⟩
  rw [hf, List.append_assoc, List.cons_append]

/-- A write whose reads hold their built values writes the built value. -/
theorem fillEntry_of_ready {m : Memory} {done : List (Nat × Byte)} {k : Nat} {n : Byte}
    (h : m.Lists done) (hready : Ready done (k, n)) :
    fillEntry m k n = m.setEntry k n (builtEntry k n) := by
  cases k with
  | zero => rfl
  | succ k =>
    obtain ⟨hprev, hrow0⟩ := hready
    have hval : rowK (m.entry 0) (m.entry k n) = builtEntry (k + 1) n := by
      rw [rowK, h.entry hprev, h.entry hrow0]
      rfl
    rw [fillEntry, hval]

theorem fillAll_concat (m : Memory) (order : List (Nat × Byte)) (e : Nat × Byte) :
    fillAll m (order ++ [e]) = fillEntry (fillAll m order) e.1 e.2 := by
  simp [fillAll]

/-- The writes of an admissible order leave the built value at each of its places. -/
theorem fillAll_lists {order : List (Nat × Byte)} (h : Admissible order) (m : Memory) :
    (fillAll m order).Lists order := by
  induction order using List.reverseRecOn with
  | nil => exact fun e he => nomatch he
  | append_singleton order e ih =>
    obtain ⟨hinit, hready⟩ := h.of_concat
    rw [fillAll_concat, fillEntry_of_ready (ih hinit) hready]
    exact (ih hinit).setEntry e.1 e.2

/-- Entry writes in the rows 0..7 keep the canonical form. -/
theorem Memory.wf_fillAll {m : Memory} {order : List (Nat × Byte)} (hwf : m.wf = true)
    (hrows : ∀ e ∈ order, e.1 < 8) : (fillAll m order).wf = true := by
  induction order generalizing m with
  | nil => exact hwf
  | cons e order ih =>
    obtain ⟨hrow, hrest⟩ := List.forall_mem_cons.mp hrows
    exact ih (Memory.wf_fillEntry e.2 hwf hrow) hrest

/-- The writes of an admissible order over all the places end with the built table. -/
theorem fillAll_eq_builtTable {m : Memory} {order : List (Nat × Byte)} (hwf : m.wf = true)
    (h : Admissible order) (hplaces : ∀ (k : Nat) (n : Byte), (k, n) ∈ order ↔ k < 8) :
    fillAll m order = builtTable :=
  (fillAll_lists h m).eq_builtTable
    (Memory.wf_fillAll hwf fun e he => (hplaces e.1 e.2).mp he) fun k n => (hplaces k n).mpr

/-- Settles O17: by induction on the writes each leaves the built value at its place, and the places
are the whole canonical table space. -/
theorem admissibleWriteOrdersAgree : Obligations.AdmissibleWriteOrdersAgree := by
  intro m order hwf hrows hall hdeps
  refine fillAll_eq_builtTable hwf (fun done later e horder => ?_)
    fun k n => ⟨fun hmem => hrows _ hmem, hall k n⟩
  obtain ⟨_ | k, n⟩ := e
  · trivial
  · exact hdeps done later k n horder

/-! ### The loops of BUILD (rule R53) -/

/-- The loops write the places of the rows 0..7. -/
theorem mem_loopOrder_iff (k : Nat) (n : Byte) : (k, n) ∈ loopOrder ↔ k < 8 := by
  have hrow : ∃ x ∈ List.range Config.rowEntries, BitVec.ofNat 8 x = n :=
    ⟨n.toNat, List.mem_range.mpr n.isLt, by simp⟩
  simpa [loopOrder, Config.rows] using fun _ : k < 8 => hrow

/-- The loops go row by row. -/
theorem pairwise_row_le_loopOrder : loopOrder.Pairwise fun e f => e.1 ≤ f.1 := by
  refine List.pairwise_flatMap.mpr
    ⟨fun k _ => ?_, List.pairwise_lt_range.imp fun hlt e he f hf => ?_⟩
  · exact List.pairwise_map.mpr (List.pairwise_of_forall fun _ _ => le_refl k)
  · obtain ⟨_, -, rfl⟩ := List.mem_map.mp he
    obtain ⟨_, -, rfl⟩ := List.mem_map.mp hf
    exact hlt.le

/-- An order that goes row by row and leaves no place out has the whole of each row before any place
of the next. -/
theorem admissible_of_row_by_row {order : List (Nat × Byte)}
    (hrows : order.Pairwise fun e f => e.1 ≤ f.1)
    (hplaces : ∀ (k : Nat) (n : Byte), (k, n) ∈ order ↔ k < 8) : Admissible order := by
  rintro done later ⟨row, n⟩ rfl
  have hrow : row < 8 := (hplaces row n).mp (by simp)
  obtain ⟨-, hrest, -⟩ := List.pairwise_append.mp hrows
  obtain ⟨hlater, -⟩ := List.pairwise_cons.mp hrest
  have hdone {j : Nat} (i : Byte) (hj : j < row) : (j, i) ∈ done := by
    have hmem := (hplaces j i).mpr (hj.trans hrow)
    rcases List.mem_append.mp hmem with hmem | hmem
    · exact hmem
    · rcases List.mem_cons.mp hmem with hmem | hmem
      · cases hmem
        exact absurd hj (Nat.lt_irrefl _)
      · exact absurd (hlater _ hmem) (Nat.not_le_of_lt hj)
  cases row with
  | zero => trivial
  | succ k => exact ⟨hdone n (Nat.lt_succ_self k), hdone _ (Nat.succ_pos k)⟩

/-- Settles O16: the loops go row by row, which is an admissible order of all the places. -/
theorem buildLoopGivesBuiltTable : Obligations.BuildLoopGivesBuiltTable := fun _ hwf =>
  fillAll_eq_builtTable hwf
    (admissible_of_row_by_row pairwise_row_le_loopOrder mem_loopOrder_iff) mem_loopOrder_iff

/-! ### Entries of the built table (rule R34, rule R58) -/

/-- Settles O18, by induction on the row: the first step takes the byte to row 0, each later one to
the next row. -/
theorem entryIsZeroStepsOfByte : Obligations.EntryIsZeroStepsOfByte := by
  intro k n hk
  induction k with
  | zero => simp
  | succ k ih =>
    rw [Function.iterate_succ_apply', ← ih (Nat.lt_of_succ_lt hk)]
    exact entry_builtTable_succ n (Nat.lt_of_succ_lt_succ hk)

/-- Settles O21: the invariant's table is the built table, which lists every entry. -/
theorem validTableHasNoUnbuiltEntry : Obligations.ValidTableHasNoUnbuiltEntry := by
  intro s k n hinv hv hk
  rw [hinv.table_eq hv]
  exact Memory.find?_builtTable n hk

/-! ### The round over the combined word (rule R63) -/

/-- Byte j of the combined word is the index of lane j. -/
theorem lane_eq_lowByte_combined {d0 d1 d2 d3 d4 d5 d6 d7 d : Byte} {j : Nat} (s : Word)
    (h : [d0, d1, d2, d3, d4, d5, d6, d7][j]? = some d) :
    lane s j d = lowByte ((s ^^^ le64 d0 d1 d2 d3 d4 d5 d6 d7) >>> (8 * j)) := by
  rw [lane_eq, BitVec.ushiftRight_xor_distrib, lowByte_xor, lowByte_ushiftRight,
    lowByte_ushiftRight, le64_byte h]

/-- Settles O27: each lane is a byte of the combined word. -/
theorem sliceOverCombinedWord : Obligations.SliceOverCombinedWord := by
  intro m s d0 d1 d2 d3 d4 d5 d6 d7
  have hlane {j : Nat} {d : Byte} (h : [d0, d1, d2, d3, d4, d5, d6, d7][j]? = some d) :=
    lane_eq_lowByte_combined s h
  rw [slice8, hlane (j := 0) rfl, hlane (j := 1) rfl, hlane (j := 2) rfl, hlane (j := 3) rfl,
    hlane (j := 4) rfl, hlane (j := 5) rfl, hlane (j := 6) rfl, hlane (j := 7) rfl]
  rfl

end Sys2Proof.Machine
end

section
/-! PROOFS. One move at the command ports (20_memory.md, 30_encoding.md, 60_exceptions.md,
70_reset_and_hazards.md): what each move answers, case by case, and the single steps that the
statements speak of. -/

namespace Sys2Proof.Machine

/-! ### The next move -/

theorem step_of_agenda_cons {s : State} {v : Move} {rest : List Move} (h : s.agenda = v :: rest) :
    step s = perform v (s.setAgenda rest) := by
  rw [step, h]

theorem step_of_agenda_nil {s : State} (h : s.agenda = []) : step s = settle s := by
  rw [step, h]

theorem settle_of_nextAgent {s : State} {g : Agent} (h : nextAgent s = some g) :
    settle s = serve g s := by
  rw [settle, h]

theorem settle_of_nobody {s : State} (h : nextAgent s = none) : settle s = .next s := by
  rw [settle, h]

/-- The TableBuilder moves first on its own. -/
theorem nextAgent_of_build_due {s : State} (h : s.tableValid = false ∨ s.pendingBuilds ≠ 0) :
    nextAgent s = some .tableBuilder :=
  if_pos h

theorem nextAgent_of_built {s : State} (hv : s.tableValid = true) (hp : s.pendingBuilds = 0) :
    nextAgent s = (firstBusy 0 s.accs).map .acc :=
  if_neg (by simp [hv, hp])

/-! ### A request that enters -/

theorem Instr.acc?_eq_none_iff {op : Instr} : op.acc? = none ↔ op = .build := by
  cases op <;> simp [Instr.acc?]

theorem conflict_eq_true_iff {x y : Instr} :
    conflict x y = true ↔ writesState x = true ∨ writesState y = true :=
  Bool.or_eq_true_iff

theorem conflict_eq_false_iff {x y : Instr} :
    conflict x y = false ↔ writesState x = false ∧ writesState y = false :=
  Bool.or_eq_false_iff

theorem enter_build (s : State) :
    enter .build s = .next (s.setPendingBuilds (s.pendingBuilds + 1)) := rfl

section
variable {op : Instr} {k : Nat} {s : State} {a : Acc} (hop : op.acc? = some k)
include hop

theorem enter_noSuchAcc (ha : s.accs[k]? = none) : enter op s = .refused (.noSuchAcc k) := by
  simp [enter, hop, ha]

theorem enter_overlap {x : Instr} (ha : s.accs[k]? = some a) (hx : x ∈ a.inProgress)
    (hc : conflict op x = true) : enter op s = .refused (.overlap k) := by
  have hany : a.inProgress.any (conflict op) = true := List.any_eq_true.mpr ⟨x, hx, hc⟩
  simp [enter, hop, ha, hany]

theorem enter_accepted (ha : s.accs[k]? = some a)
    (hfree : ∀ x ∈ a.inProgress, conflict op x = false) :
    enter op s = .next (s.setAcc k (a.setInProgress (a.inProgress ++ [op]))) := by
  have hany : a.inProgress.any (conflict op) = false := by simpa using hfree
  simp [enter, hop, ha, hany]

end

/-- The moves still to come play no part where an operation enters. -/
theorem enter_setAgenda (op : Instr) (s : State) :
    (∃ e, ∀ l, enter op (s.setAgenda l) = .refused e) ∨
    (∃ t : State, ∀ l, enter op (s.setAgenda l) = .next (t.setAgenda l)) := by
  cases hop : op.acc? with
  | none =>
    obtain rfl := Instr.acc?_eq_none_iff.mp hop
    exact .inr ⟨s.setPendingBuilds (s.pendingBuilds + 1), fun l => enter_build (s.setAgenda l)⟩
  | some k =>
    cases ha : s.accs[k]? with
    | none => exact .inl ⟨_, fun l => enter_noSuchAcc hop ha⟩
    | some a =>
      by_cases hc : ∃ x ∈ a.inProgress, conflict op x = true
      · obtain ⟨x, hx, hc⟩ := hc
        exact .inl ⟨_, fun l => enter_overlap hop ha hx hc⟩
      · have hfree : ∀ x ∈ a.inProgress, conflict op x = false := by simpa using hc
        exact .inr ⟨s.setAcc k _, fun l => enter_accepted hop ha hfree⟩

/-! ### A request whose word is an operation's -/

section
variable {r : Request} {op : Instr} (hd : decode r = .ok op)
include hd

theorem arrive_of_decode (s : State) : arrive r s = enter op s := by
  simp [arrive, hd]

theorem call_of_enter_next {s t : State} (he : enter op s = .next t) :
    call r s = serve (home op) t := by
  simp [call, hd, he]

theorem call_of_enter_refused {s : State} {e : Refusal} (he : enter op s = .refused e) :
    call r s = .refused e := by
  simp [call, hd, he]

/-- A request reaches the accumulator of its own port (rule R42). -/
theorem acc_eq_port_of_decode {k : Nat} (hop : op.acc? = some k) : k = r.port := by
  have hfields := (decodeAndEncodeAgree.2 r op).mp hd
  cases op with
  | build => cases hop
  | write | sum =>
    cases hop
    obtain ⟨-, hport, -⟩ := hfields
    exact hport.symm
  | reset | size | blockSize =>
    cases hop
    obtain ⟨-, hport⟩ := hfields
    exact hport.symm

/-- A call whose operation meets nothing in progress is that operation: what has just been issued is
the oldest, and taking it off restores the accumulator. -/
theorem call_of_idle {s : State}
    (hidle : ∀ k, op.acc? = some k → ∃ a, s.accs[k]? = some a ∧ a.inProgress = []) :
    call r s = exec op s := by
  cases hop : op.acc? with
  | none =>
    obtain rfl := Instr.acc?_eq_none_iff.mp hop
    exact call_of_enter_next hd (enter_build s)
  | some k =>
    obtain ⟨a, ha, hnil⟩ := hidle k hop
    have henter := enter_accepted hop ha (by simp [hnil])
    have hrestored : a.setInProgress [] = a := by rw [← hnil]; rfl
    rw [call_of_enter_next hd henter, home_eq_acc hop,
      serve_acc_cons (op := op) (rest := []) (State.setAcc_get_same _ ha) (by simp [hnil]),
      State.setAcc_setAcc]
    exact congrArg (exec op) ((congrArg (s.setAcc k) hrestored).trans (State.setAcc_self ha))

end

/-- Settles O4: with nothing else in progress the call is its operation. -/
theorem stepRunsDecodedOperation : Obligations.StepRunsDecodedOperation := by
  intro s r rest i hs hd hidle
  rw [step_of_agenda_cons hs]
  exact call_of_idle hd hidle

/-- Settles O6: an operation enters alike whatever moves follow, and then its agent's step is the
next move. -/
theorem callIsArrivalThenAgentStep : Obligations.CallIsArrivalThenAgentStep := by
  intro s r op rest hd
  rw [step_call, step_issue, arrive_of_decode hd]
  obtain ⟨e, he⟩ | ⟨t, ht⟩ := enter_setAgenda op s
  · rw [call_of_enter_refused hd (he rest), he]
  · rw [call_of_enter_next hd (ht rest), ht]
    rfl

/-- Settles O48: the operation conflicts with the one in progress, so it does not enter. -/
theorem overlapIsRefused : Obligations.OverlapIsRefused := by
  intro s r rest op x k acc hd hop ha hx hw
  have henter : enter op (s.setAgenda rest) = .refused (.overlap k) :=
    enter_overlap hop ha hx (conflict_eq_true_iff.mpr hw.symm)
  rw [step_call, step_issue, arrive_of_decode hd, call_of_enter_refused hd henter]
  exact ⟨rfl, henter⟩

/-- Settles O49: nothing in progress conflicts, so the operation enters and stands last. -/
theorem noOverlapIsAccepted : Obligations.NoOverlapIsAccepted := by
  intro s r rest op k acc hd hop ha hfree
  rw [step_issue, arrive_of_decode hd]
  exact enter_accepted hop ha fun x hx => conflict_eq_false_iff.mpr (hfree x hx).symm

/-- Settles O58: BUILD has no accumulator, so it enters as a waiting command. -/
theorem buildCommandIsAccepted : Obligations.BuildCommandIsAccepted := by
  intro s r rest hd
  rw [step_issue, arrive_of_decode hd, enter_build]
  rfl

/-! ### A placed command word (log entry 6) -/

theorem decode_of_decodeTableWord {w : Nat} {i : Instr} (h : decodeTableWord 8 w = some i) :
    w < 256 ∧ decode (wordAtPort0 w) = .ok i := by
  unfold decodeTableWord at h
  split_ifs at h with hw
  cases hd : decode (wordAtPort0 w) with
  | error e => simp [hd] at h
  | ok j => exact ⟨hw.2, by simpa [hd] using h⟩

@[simp] theorem placeCall_agenda (s : State) (r : Request) :
    (placeCall s r).agenda = .call r :: s.agenda := by
  unfold placeCall
  split_ifs <;> rfl

@[simp] theorem placeCall_accs (s : State) (r : Request) :
    (placeCall s r).accs = s.accs.modify r.port fun a => a.setInProgress [] := by
  unfold placeCall
  split_ifs <;> rfl

theorem placeCall_tableValid {r : Request} (h : r.word ≠ 0#8) (s : State) :
    (placeCall s r).tableValid = true := by
  cases hv : s.tableValid with
  | true => simp [placeCall, hv]
  | false => simp [placeCall, hv, h]

/-- Where a call is placed, nothing is in progress at its port. -/
theorem placeCall_idle {s : State} {r : Request} (hport : r.port < s.accs.length) :
    ∃ a, (placeCall s r).accs[r.port]? = some a ∧ a.inProgress = [] :=
  ⟨s.accs[r.port].setInProgress [], by simp [hport], rfl⟩

/-- Settles O5: the placed call meets nothing in progress at its port, and every word but BUILD's is
placed on a valid table. -/
theorem placedWordRuns : Obligations.PlacedWordRuns := by
  intro s w i hi hpos
  obtain ⟨hw, hd⟩ := decode_of_decodeTableWord hi
  have hplace : s.withFetchWord 8 w = placeCall s (wordAtPort0 w) :=
    congrArg (fun v => placeCall s (wordAtPort0 v)) (Nat.mod_eq_of_lt hw)
  rw [hplace]
  refine ⟨stepRunsDecodedOperation _ _ _ _ (placeCall_agenda _ _) hd fun k hk => ?_, fun hne => ?_⟩
  · obtain rfl := acc_eq_port_of_decode hd hk
    exact placeCall_idle hpos
  · exact placeCall_tableValid (fun h0 => hne (Except.ok.inj (hd.symm.trans (decode_build h0)))) s

/-! ### The TableBuilder's step and the reset of the whole block -/

theorem serve_tableBuilder_valid {s : State} (hv : s.tableValid = true) :
    serve .tableBuilder s = .next (s.setPendingBuilds (s.pendingBuilds - 1)) :=
  exec_build_valid hv

theorem serve_tableBuilder_unbuilt {s : State} (hv : s.tableValid = false) :
    serve .tableBuilder s = .next
      ((s.setPendingBuilds (s.pendingBuilds - 1)).setTable builtTable).setTableValid :=
  exec_build_unbuilt hv

/-- Settles O10: the TableBuilder finds the table valid or builds it. -/
theorem buildAtAnyMoment : Obligations.BuildAtAnyMoment := by
  intro s rest hs
  rw [step_of_agenda_cons hs]
  cases hv : s.tableValid with
  | true => exact ⟨_, serve_tableBuilder_valid hv, hv, rfl, rfl, rfl, nofun, fun _ => rfl⟩
  | false => exact ⟨_, serve_tableBuilder_unbuilt hv, rfl, rfl, rfl, rfl, fun _ => rfl, nofun⟩

/-- Settles O8: with no moves and no valid table the TableBuilder moves, and no command is waiting
that its step could use up. -/
theorem firstStepAfterResetIsBuild : Obligations.FirstStepAfterResetIsBuild := by
  have hstep : step State.reset = exec .build State.reset := by
    rw [step_of_agenda_nil rfl, settle_of_nextAgent (nextAgent_of_build_due (.inl rfl))]
    rfl
  exact ⟨hstep, hstep.trans (exec_build_unbuilt rfl)⟩

/-- Settles O9, from the move itself. -/
theorem hardResetReturnsToReset : Obligations.HardResetReturnsToReset := fun _ _ hs =>
  ⟨_, step_of_agenda_cons hs, rfl, rfl, rfl, rfl, rfl⟩

/-- Settles O7: every accumulator of reset is fresh, and an empty table space reads as the free
value. -/
theorem resetLeaves : Obligations.ResetLeaves := by
  refine ⟨rfl, by simp, Config.nAcc_pos, fun k a ha => ?_, fun k n => rfl, rfl⟩
  obtain rfl := List.eq_of_mem_replicate (List.mem_of_getElem? ha)
  exact ⟨rfl, rfl, rfl⟩

/-- Settles O11: at rest no agent is due. -/
theorem runEndsAtRest : Obligations.RunEndsAtRest := by
  rintro s hs hv ⟨hpending, hidle⟩
  have hnobody : nextAgent s = none := by
    rw [nextAgent_of_built hv hpending, firstBusy_eq_none.mpr hidle, Option.map_none]
  rw [step_of_agenda_nil hs, settle_of_nobody hnobody]

/-! ### One operation -/

/-- Settles O39: the hold of the shared accumulator operation. -/
theorem operationsHoldBeforeBuild : Obligations.OperationsHoldBeforeBuild :=
  fun _ _ _ _ hop hv ha => exec_held hop hv ha

/-- Beyond its 2048 entries a canonical table space reads as the free value. -/
theorem Memory.read_beyond {m : Memory} {a : Nat} (h : m.wf = true) (ha : 2048 ≤ a) :
    m.read a = Config.unbuiltEntry a := by
  rw [Memory.read, Memory.find?_beyond h ha, Option.getD_none]

/-- Settles O41: BUILD stores the table or changes nothing, and neither table lists an address
beyond its entries. -/
theorem buildFrame : Obligations.BuildFrame := by
  intro s t h
  cases hv : s.tableValid with
  | true =>
    cases (exec_build_valid hv).symm.trans h
    exact ⟨rfl, rfl, rfl, fun _ _ => rfl, fun _ _ _ => rfl⟩
  | false =>
    cases (exec_build_unbuilt hv).symm.trans h
    exact ⟨rfl, rfl, rfl, nofun, fun a ha hwf =>
      (Memory.read_beyond Memory.wf_builtTable ha).trans (Memory.read_beyond hwf ha).symm⟩

/-- Settles O46: in both states the operation runs on the built table, from the same accumulator. -/
theorem operationSeesOwnStateOnly : Obligations.OperationSeesOwnStateOnly := by
  intro s u op k acc hs hu hvs hvu hop has hau
  obtain ⟨s', hexec, hs'⟩ := (hs.builtAt hvs has).exec_next hop
  obtain ⟨u', hexec', hu'⟩ := (hu.builtAt hvu hau).exec_next hop
  exact ⟨s', u', acc.after op, hexec, hexec', hs'.get, hu'.get⟩

/-- The accumulator after its operation, run or held. -/
def Acc.runOrHold (a : Acc) (op : Instr) (m : Memory) (valid : Bool) : Acc :=
  if valid then a.complete (newCrc op m a.crc) (resultOf op a.crc) else a.hold op

/-- An operation replaces its own accumulator, by what the table and that accumulator say. -/
theorem exec_eq_setAcc {s : State} {op : Instr} {k : Nat} {a : Acc} (hop : op.acc? = some k)
    (ha : s.accs[k]? = some a) :
    exec op s = .next (s.setAcc k (a.runOrHold op s.table s.tableValid)) := by
  cases hv : s.tableValid with
  | true => exact exec_ready hop hv ha
  | false => exact exec_held hop hv ha

/-- Settles O47: each operation finds the table and its own accumulator as they were, and writes to
different accumulators commute. -/
theorem differentAccumulatorsCommute : Obligations.DifferentAccumulatorsCommute := by
  intro s x y k j hx hy hne hk hj
  have ha := List.getElem?_eq_getElem hk
  have hb := List.getElem?_eq_getElem hj
  have hb' := (s.setAcc_get_other (s.accs[k].runOrHold x s.table s.tableValid) hne).trans hb
  have ha' := (s.setAcc_get_other (s.accs[j].runOrHold y s.table s.tableValid) hne.symm).trans ha
  refine ⟨_, _, _, exec_eq_setAcc hx ha, exec_eq_setAcc hy hb', exec_eq_setAcc hy hb, ?_⟩
  rw [exec_eq_setAcc hx ha', ← State.setAcc_comm _ _ _ hne]
  rfl

end Sys2Proof.Machine
end

section
/-! PROOFS. The whole machine: what an agent's step can do under the invariant, the invariant along
every step, what never changes, why a step is refused, and how a run ends. -/

namespace Sys2Proof.Machine

/-! ### The parts of the invariant -/

theorem conflict_comm (x y : Instr) : conflict x y = conflict y x := Bool.or_comm _ _

theorem Acc.queueInv_of_idle {a : Acc} (h : a.inProgress = []) (k : Nat) : a.QueueInv k := by
  simp [Acc.QueueInv, h]

/-- A sound queue stays sound when operations leave it; STATE and the results play no part. -/
theorem Acc.QueueInv.of_sublist {k : Nat} {a b : Acc} (h : a.QueueInv k)
    (hsub : b.inProgress.Sublist a.inProgress) : b.QueueInv k := by
  obtain ⟨hown, hpair⟩ := h
  exact ⟨fun op hop => hown op (hsub.subset hop), hpair.sublist hsub⟩

/-- A queue stays sound when an operation of its accumulator that conflicts with nothing in it
joins. -/
theorem Acc.QueueInv.concat {k : Nat} {a : Acc} {op : Instr} (h : a.QueueInv k)
    (hop : op.acc? = some k) (hfree : a.inProgress.any (conflict op) = false) :
    (a.setInProgress (a.inProgress ++ [op])).QueueInv k := by
  obtain ⟨hown, hpair⟩ := h
  refine ⟨fun x hx => ?_, List.pairwise_append.mpr ⟨hpair, List.pairwise_singleton _ _, ?_⟩⟩
  · rcases List.mem_append.mp hx with hx | hx
    · exact hown x hx
    · rwa [List.mem_singleton.mp hx]
  · intro x hx y hy
    rw [List.mem_singleton.mp hy, conflict_comm]
    simpa using List.any_eq_false.mp hfree x hx

theorem State.Inv.queueInv {s : State} {k : Nat} {a : Acc} (h : s.Inv)
    (ha : s.accs[k]? = some a) : a.QueueInv k := by
  obtain ⟨-, -, hqueues⟩ := h
  exact hqueues k a ha

/-- What is in progress at an accumulator is addressed to it. -/
theorem State.Inv.acc_of_mem {s : State} {k : Nat} {a : Acc} {op : Instr} (h : s.Inv)
    (ha : s.accs[k]? = some a) (hmem : op ∈ a.inProgress) : op.acc? = some k := by
  obtain ⟨hown, -⟩ := h.queueInv ha
  exact hown op hmem

theorem State.Inv.setAcc {s : State} {k : Nat} {b : Acc} (h : s.Inv) (hb : b.QueueInv k) :
    (s.setAcc k b).Inv := by
  obtain ⟨htable, hpos, hqueues⟩ := h
  refine ⟨htable, by simpa using hpos, fun j c hc => ?_⟩
  by_cases hj : k = j
  · subst hj
    obtain ⟨hlt, -⟩ := List.getElem?_eq_some_iff.mp hc
    have hlt : k < s.accs.length := by simpa using hlt
    cases (State.setAcc_get_same b (List.getElem?_eq_getElem hlt)).symm.trans hc
    exact hb
  · rw [State.setAcc_get_other s b hj] at hc
    exact hqueues j c hc

theorem State.Inv.setAgenda {s : State} (h : s.Inv) (l : List Move) : (s.setAgenda l).Inv := h

theorem State.Inv.setPendingBuilds {s : State} (h : s.Inv) (n : Nat) :
    (s.setPendingBuilds n).Inv := h

theorem State.Inv.build {s : State} (h : s.Inv) : (s.setTable builtTable).setTableValid.Inv := by
  obtain ⟨-, hports⟩ := h
  exact ⟨⟨Memory.wf_builtTable, fun _ => rfl⟩, hports⟩

/-- An unbuilt block with an empty table space and fresh accumulators has the invariant. -/
theorem inv_of_fresh {s : State} {n : Nat} (htable : s.table = []) (hv : s.tableValid = false)
    (haccs : s.accs = List.replicate n Acc.fresh) (hn : 0 < n) : s.Inv := by
  refine ⟨⟨by rw [htable, Memory.wf_nil], by simp [hv]⟩, by simpa [haccs], fun k a ha => ?_⟩
  rw [haccs] at ha
  obtain rfl := List.eq_of_mem_replicate (List.mem_of_getElem? ha)
  exact Acc.queueInv_of_idle rfl k

/-- Settles O51: the block after reset is unbuilt and fresh. -/
theorem invariantHoldsAtReset : Obligations.InvariantHoldsAtReset :=
  inv_of_fresh rfl rfl rfl Config.nAcc_pos

/-! ### An agent's step under the invariant -/

section
variable {s : State} {k : Nat} {a : Acc} {op : Instr} {q : List Instr}
  (hop : op.acc? = some k) (ha : s.accs[k]? = some a) (hq : a.inProgress = op :: q)
include hop ha hq

theorem serve_acc_built (hv : s.tableValid = true) :
    serve (.acc k) s = .next (s.setAcc k
      ((a.setInProgress q).complete (newCrc op s.table a.crc) (resultOf op a.crc))) := by
  rw [serve_acc_cons ha hq,
    exec_ready (s := s.setAcc k _) hop hv (State.setAcc_get_same _ ha), State.setAcc_setAcc]
  rfl

/-- Before BUILD the oldest operation is put back in its place. -/
theorem serve_acc_unbuilt (hv : s.tableValid = false) : serve (.acc k) s = .next s := by
  have hback : (a.setInProgress q).hold op = a := by simp [Acc.hold, Acc.setInProgress, ← hq]
  rw [serve_acc_cons ha hq,
    exec_held (s := s.setAcc k _) hop hv (State.setAcc_get_same _ ha), State.setAcc_setAcc, hback,
    State.setAcc_self ha]

end

/-- What the step of an agent makes of a state of the invariant. -/
inductive Served (s : State) : Agent → State → Prop
  /-- The TableBuilder builds the table. -/
  | build (hv : s.tableValid = false) : Served s .tableBuilder
      ((s.setPendingBuilds (s.pendingBuilds - 1)).setTable builtTable).setTableValid
  /-- The TableBuilder finds the table built. -/
  | rebuild (hv : s.tableValid = true) :
      Served s .tableBuilder (s.setPendingBuilds (s.pendingBuilds - 1))
  /-- An accumulator has nothing in progress, or holds. -/
  | idle (k : Nat) : Served s (.acc k) s
  /-- An accumulator runs its oldest operation. -/
  | run {k : Nat} {a : Acc} {op : Instr} {q : List Instr} (hv : s.tableValid = true)
      (ha : s.accs[k]? = some a) (hq : a.inProgress = op :: q) (hop : op.acc? = some k) :
      Served s (.acc k) (s.setAcc k
        ((a.setInProgress q).complete (newCrc op s.table a.crc) (resultOf op a.crc)))

/-- In a state of the invariant every agent's step completes. -/
theorem State.Inv.served {s : State} (h : s.Inv) (g : Agent) :
    ∃ t, serve g s = .next t ∧ Served s g t := by
  cases g with
  | tableBuilder =>
    cases hv : s.tableValid with
    | true => exact ⟨_, serve_tableBuilder_valid hv, .rebuild hv⟩
    | false => exact ⟨_, serve_tableBuilder_unbuilt hv, .build hv⟩
  | acc k =>
    by_cases hidle : ∀ a, s.accs[k]? = some a → a.inProgress = []
    · exact ⟨s, serve_acc_idle hidle, .idle k⟩
    · push Not at hidle
      obtain ⟨a, ha, hne⟩ := hidle
      obtain ⟨op, q, hq⟩ := List.exists_cons_of_ne_nil hne
      have hop := h.acc_of_mem ha (hq ▸ List.mem_cons_self)
      cases hv : s.tableValid with
      | true => exact ⟨_, serve_acc_built hop ha hq hv, .run hv ha hq hop⟩
      | false => exact ⟨s, serve_acc_unbuilt hop ha hq hv, .idle k⟩

theorem State.Inv.served_of_serve {s t : State} {g : Agent} (h : s.Inv) (hs : serve g s = .next t) :
    Served s g t := by
  obtain ⟨t', ht', hserved⟩ := h.served g
  cases ht'.symm.trans hs
  exact hserved

/-! ### What every step keeps -/

/-- A property of the state that using up a move, an operation that enters, an agent's step and a
reset of the whole block all keep is kept by every step. -/
theorem step_keeps {P : State → Prop} {s t : State} (hs : P s) (h : step s = .next t)
    (hagenda : ∀ l, P (s.setAgenda l))
    (henter : ∀ {op u v}, P u → enter op u = .next v → P v)
    (hserve : ∀ {g u v}, P u → serve g u = .next v → P v)
    (hreset : ∀ rest, s.agenda = .hardReset :: rest → P (hardReset (s.setAgenda rest))) : P t := by
  obtain ⟨-, h⟩ | ⟨r, rest, -, h⟩ | ⟨r, rest, -, h⟩ | ⟨g, rest, -, h⟩ | ⟨rest, hr, rfl⟩ :=
    step_next h
  · obtain ⟨-, rfl⟩ | ⟨g, -, hg⟩ := settle_next h
    · exact hs
    · exact hserve hs hg
  · obtain ⟨op, u, -, hu, ht⟩ := call_next h
    exact hserve (henter (hagenda rest) hu) ht
  · obtain ⟨op, -, ht⟩ := arrive_next h
    exact henter (hagenda rest) ht
  · exact hserve (hagenda rest) h
  · exact hreset rest hr

theorem State.Inv.enter {s t : State} {op : Instr} (h : s.Inv)
    (hs : Machine.enter op s = .next t) : t.Inv := by
  obtain ⟨-, rfl⟩ | ⟨k, a, hop, ha, hfree, rfl⟩ := enter_next hs
  · exact h.setPendingBuilds _
  · exact h.setAcc ((h.queueInv ha).concat hop hfree)

theorem State.Inv.serve {s t : State} {g : Agent} (h : s.Inv)
    (hs : Machine.serve g s = .next t) : t.Inv := by
  cases h.served_of_serve hs with
  | build => exact (h.setPendingBuilds _).build
  | rebuild => exact h.setPendingBuilds _
  | idle => exact h
  | run _ ha hq _ =>
    exact h.setAcc ((h.queueInv ha).of_sublist (hq ▸ List.sublist_cons_self _ _))

theorem State.Inv.hardReset {s : State} (h : s.Inv) : (Machine.hardReset s).Inv := by
  obtain ⟨-, hpos, -⟩ := h
  exact inv_of_fresh rfl rfl rfl hpos

/-- Settles O52: an operation that enters keeps its queue sound, an agent's step shortens a queue or
builds the table, and the reset of the whole block starts fresh. -/
theorem stepKeepsInvariant : Obligations.StepKeepsInvariant := fun _ _ hinv h =>
  step_keeps hinv h hinv.setAgenda State.Inv.enter State.Inv.serve
    fun rest _ => (hinv.setAgenda rest).hardReset

/-- Where an operation enters, the table is not touched and no accumulator comes or goes. -/
theorem enter_frame {op : Instr} {s t : State} (h : enter op s = .next t) :
    t.table = s.table ∧ t.tableValid = s.tableValid ∧ t.accs.length = s.accs.length := by
  obtain ⟨-, rfl⟩ | ⟨k, a, -, -, -, rfl⟩ := enter_next h
  · exact ⟨rfl, rfl, rfl⟩
  · exact ⟨rfl, rfl, by simp⟩

/-- An operation adds and drops no accumulator, and leaves a valid table as it is. -/
theorem exec_frame {op : Instr} {s t : State} (h : exec op s = .next t) :
    t.accs.length = s.accs.length ∧
      (s.tableValid = true → t.tableValid = true ∧ t.table = s.table) := by
  obtain ⟨-, hv, rfl⟩ | ⟨-, hv, rfl⟩ | ⟨k, a, -, -, hv, rfl⟩ | ⟨k, a, -, -, hv, rfl⟩ := exec_next h
  all_goals simp [hv]

/-- An agent's step adds and drops no accumulator, and leaves a valid table as it is. -/
theorem serve_frame {g : Agent} {s t : State} (h : serve g s = .next t) :
    t.accs.length = s.accs.length ∧
      (s.tableValid = true → t.tableValid = true ∧ t.table = s.table) := by
  obtain ⟨-, hs⟩ | hs | ⟨k, a, op, q, -, -, -, hs⟩ := serve_cases g s
  · simpa using exec_frame (hs.symm.trans h)
  · cases hs.symm.trans h
    exact ⟨rfl, fun hv => ⟨hv, rfl⟩⟩
  · simpa using exec_frame (hs.symm.trans h)

/-- Settles O53: what enters does not touch the table, and no agent touches a valid one. -/
theorem builtTableNeverChanges : Obligations.BuiltTableNeverChanges := by
  intro s t hv hnoreset h
  refine step_keeps (P := fun u => u.tableValid = true ∧ u.table = s.table) ⟨hv, rfl⟩ h
    (fun _ => ⟨hv, rfl⟩) ?enter ?serve fun rest hr => absurd hr (hnoreset rest)
  case enter =>
    rintro op u v ⟨huv, hut⟩ huv'
    obtain ⟨htable, hvalid, -⟩ := enter_frame huv'
    exact ⟨hvalid.trans huv, htable.trans hut⟩
  case serve =>
    rintro g u v ⟨huv, hut⟩ huv'
    obtain ⟨hvalid, htable⟩ := (serve_frame huv').2 huv
    exact ⟨hvalid, htable.trans hut⟩

/-- Settles O55: accumulators are replaced one for one, and the reset of the whole block makes as
many fresh ones. -/
theorem accumulatorCountIsFixed : Obligations.AccumulatorCountIsFixed := by
  intro s t h
  refine step_keeps (P := fun u => u.accs.length = s.accs.length) rfl h (fun _ => rfl) ?enter ?serve
    fun _ _ => List.length_replicate
  case enter =>
    intro op u v hu huv
    obtain ⟨-, -, hlen⟩ := enter_frame huv
    exact hlen.trans hu
  case serve => exact fun hu huv => (serve_frame huv).1.trans hu

/-! ### What changes a STATE (rule R14, rule R15) -/

theorem home_eq_acc_iff {op : Instr} {j : Nat} : home op = .acc j ↔ op.acc? = some j := by
  cases op <;> simp [home, Instr.acc?]

/-- The operation is a RESET or a WRITE of accumulator `j`, and `new` is the STATE that it makes of
`old` on the table space `m`. -/
def SetsCrc (op : Instr) (j : Nat) (m : Memory) (old new : Word) : Prop :=
  (op = .reset j ∧ new = 0) ∨ ∃ p off, op = .write j p off ∧ new = update m old p off

theorem setsCrc_of_newCrc_ne {op : Instr} {j : Nat} {m : Memory} {crc : Word}
    (hop : op.acc? = some j) (hne : newCrc op m crc ≠ crc) :
    SetsCrc op j m crc (newCrc op m crc) := by
  cases op with
  | build | sum | size | blockSize => exact absurd rfl hne
  | write _ p off => cases hop; exact .inr ⟨p, off, rfl, rfl⟩
  | reset => cases hop; exact .inl ⟨rfl, rfl⟩

/-- An agent's step that changes the STATE of accumulator `j` is its own, in a built block, and its
oldest operation makes the new STATE. -/
theorem serve_sets_crc {s t : State} {g : Agent} {j : Nat} {a b : Acc} (hinv : s.Inv)
    (h : serve g s = .next t) (ha : s.accs[j]? = some a) (hb : t.accs[j]? = some b)
    (hne : b.crc ≠ a.crc) :
    s.tableValid = true ∧ g = .acc j ∧
      ∃ op, a.inProgress.head? = some op ∧ SetsCrc op j s.table a.crc b.crc := by
  cases hinv.served_of_serve h with
  | build | rebuild | idle => cases ha.symm.trans hb; exact absurd rfl hne
  | @run k c op q hv hc hq hop =>
    by_cases hkj : k = j
    · subst hkj
      cases hc.symm.trans ha
      cases (State.setAcc_get_same _ ha).symm.trans hb
      exact ⟨hv, rfl, op, by rw [hq]; rfl, setsCrc_of_newCrc_ne hop hne⟩
    · rw [State.setAcc_get_other s _ hkj, ha] at hb
      cases hb
      exact absurd rfl hne

/-- Where an operation enters, every STATE stays, and at its own accumulator it stands last. -/
theorem enter_get {op : Instr} {s u : State} {j : Nat} {a : Acc} (h : enter op s = .next u)
    (ha : s.accs[j]? = some a) :
    ∃ b, u.accs[j]? = some b ∧ b.crc = a.crc ∧
      (op.acc? = some j → b.inProgress = a.inProgress ++ [op]) := by
  obtain ⟨hop, rfl⟩ | ⟨k, c, hop, hc, -, rfl⟩ := enter_next h
  · exact ⟨a, ha, rfl, by simp [hop]⟩
  · by_cases hkj : k = j
    · subst hkj
      cases hc.symm.trans ha
      exact ⟨_, State.setAcc_get_same _ ha, rfl, fun _ => rfl⟩
    · refine ⟨a, (State.setAcc_get_other s _ hkj).trans ha, rfl, fun hj => ?_⟩
      exact absurd (Option.some.inj (hop.symm.trans hj)) hkj

/-- Settles O54: what enters and the TableBuilder change no STATE, so where no reset of the whole
block is the move, the accumulator's own step is, and it runs its oldest operation. -/
theorem stateComesFromResetOrWrite : Obligations.StateComesFromResetOrWrite := by
  intro s t j a b hinv h ha hb hne
  obtain ⟨hs, h⟩ | ⟨r, rest, hs, h⟩ | ⟨r, rest, hs, h⟩ | ⟨g, rest, hs, h⟩ | ⟨rest, hs, rfl⟩ :=
    step_next h
  · obtain ⟨-, rfl⟩ | ⟨g, hg, hserve⟩ := settle_next h
    · cases ha.symm.trans hb
      exact absurd rfl hne
    · obtain ⟨hv, rfl, op, hhead, hsets⟩ := serve_sets_crc hinv hserve ha hb hne
      exact .inr ⟨hv, op, (runs_settle hs ha).mpr ⟨hg, hhead⟩, hsets⟩
  · obtain ⟨x, u, hd, henter, hserve⟩ := call_next h
    obtain ⟨c, hc, hcrc, hlast⟩ := enter_get henter ha
    obtain ⟨htable, hvalid, -⟩ := enter_frame henter
    rw [← hcrc] at hne
    obtain ⟨hv, hhome, op, hhead, hsets⟩ :=
      serve_sets_crc ((hinv.setAgenda rest).enter henter) hserve hc hb hne
    have hx := home_eq_acc_iff.mp hhome
    rw [hlast hx] at hhead
    rw [hcrc, htable] at hsets
    exact .inr ⟨hvalid.symm.trans hv, op, (runs_call hs ha).mpr ⟨x, hd, hx, hhead⟩, hsets⟩
  · obtain ⟨x, -, henter⟩ := arrive_next h
    obtain ⟨c, hc, hcrc, -⟩ := enter_get henter ha
    cases hc.symm.trans hb
    exact absurd hcrc hne
  · obtain ⟨hv, rfl, op, hhead, hsets⟩ := serve_sets_crc (hinv.setAgenda rest) h ha hb hne
    exact .inr ⟨hv, op, (runs_serve hs ha).mpr ⟨rfl, hhead⟩, hsets⟩
  · obtain rfl := List.eq_of_mem_replicate (List.mem_of_getElem? hb)
    exact .inl ⟨⟨rest, hs⟩, rfl⟩

/-! ### Refusals (rule R94) -/

/-- Under the invariant a step is refused only where a request arrives, because its word is no
operation's or because its operation does not enter. -/
theorem step_refused {s : State} {e : Refusal} (hinv : s.Inv) (h : step s = .refused e) :
    ∃ r rest, (s.agenda = .call r :: rest ∨ s.agenda = .issue r :: rest) ∧
      (((∃ d, decode r = .error d) ∧ e = .invalidWord r.word) ∨
       ∃ op, decode r = .ok op ∧ enter op (s.setAgenda rest) = .refused e) := by
  have hserve {u : State} (hu : u.Inv) (g : Agent) : serve g u ≠ .refused e := by
    obtain ⟨t, ht, -⟩ := hu.served g
    simp [ht]
  cases hs : s.agenda with
  | nil =>
    rw [step_of_agenda_nil hs] at h
    cases hg : nextAgent s with
    | none => cases (settle_of_nobody hg).symm.trans h
    | some g => exact absurd ((settle_of_nextAgent hg).symm.trans h) (hserve hinv g)
  | cons v rest =>
    rw [step_of_agenda_cons hs] at h
    cases v with
    | call r =>
      refine ⟨r, rest, .inl rfl, ?_⟩
      cases hd : decode r with
      | error d => cases (call_of_decode_error hd _).symm.trans h; exact .inl ⟨⟨d, rfl⟩, rfl⟩
      | ok op =>
        refine .inr ⟨op, rfl, ?_⟩
        cases henter : enter op (s.setAgenda rest) with
        | next u =>
          exact absurd ((call_of_enter_next hd henter).symm.trans h)
            (hserve ((hinv.setAgenda rest).enter henter) _)
        | fault f => cases f
        | refused e' => cases (call_of_enter_refused hd henter).symm.trans h; rfl
    | issue r =>
      refine ⟨r, rest, .inr rfl, ?_⟩
      cases hd : decode r with
      | error d => cases (arrive_of_decode_error hd _).symm.trans h; exact .inl ⟨⟨d, rfl⟩, rfl⟩
      | ok op => exact .inr ⟨op, rfl, (arrive_of_decode hd _).symm.trans h⟩
    | serve g => exact absurd h (hserve (hinv.setAgenda rest) g)
    | hardReset => cases h

/-- Settles O56: agents' steps complete, so a refusal is the decoder's or that of an operation that
does not enter. -/
theorem onlyBadRequestsAreRefused : Obligations.OnlyBadRequestsAreRefused := by
  refine fun s hinv => ⟨nofun, fun e h => ?_⟩
  obtain ⟨r, rest, hs, ⟨hd, rfl⟩ | ⟨op, hd, henter⟩⟩ := step_refused hinv h
  · exact ⟨r, rest, hs, .inl ⟨rfl, decode_eq_error_iff.mp hd⟩⟩
  · obtain ⟨k, hop, hwhy⟩ := enter_refused henter
    refine ⟨r, rest, hs, .inr ⟨op, k, hd, hop, ?_⟩⟩
    obtain ⟨hnone, rfl⟩ | ⟨a, ha, hany, rfl⟩ := hwhy
    · exact .inl ⟨rfl, List.getElem?_eq_none_iff.mp hnone⟩
    · obtain ⟨x, hx, hc⟩ := List.any_eq_true.mp hany
      exact .inr ⟨rfl, a, x, ha, hx, (conflict_eq_true_iff.mp hc).symm⟩

/-! ### Waiting operations run -/

/-- Settles O59: the oldest operation is addressed to its accumulator, and on a valid table it
runs. -/
theorem agentRunsOldestOperation : Obligations.AgentRunsOldestOperation := by
  intro s k acc op q rest hinv hv hs ha hq
  have hop := hinv.acc_of_mem ha (hq ▸ List.mem_cons_self)
  have hrun : step s = serve (.acc k) (s.setAgenda rest) := step_of_agenda_cons hs
  refine ⟨hrun.trans (serve_acc_cons ha hq), _, _, hrun.trans (serve_acc_built hop ha hq hv), rfl,
    State.setAcc_get_same _ ha, rfl⟩

/-- Settles O50: the TableBuilder's step leaves the queue and a valid table, on which the
accumulator's step runs the oldest operation. -/
theorem buildLiftsHold : Obligations.BuildLiftsHold := by
  intro s k acc op q rest hinv hv hs ha hq
  have hbuild : step s = .next _ :=
    (step_of_agenda_cons hs).trans (serve_tableBuilder_unbuilt hv)
  obtain ⟨hexec, u, acc', hu, -, hget, hwait⟩ := agentRunsOldestOperation _ k acc op q rest
    (stepKeepsInvariant s _ hinv hbuild) rfl rfl ha hq
  exact ⟨_, u, acc', hbuild, rfl, hu, hget, hwait, hexec⟩

/-! ### The end of a run (rule R113, rule R114) -/

/-- Replacing one accumulator changes the count of the operations in progress by its own. -/
theorem sum_inProgress_set {l : List Acc} {k : Nat} {a : Acc} (b : Acc) (ha : l[k]? = some a) :
    ((l.set k b).map fun c => c.inProgress.length).sum + a.inProgress.length =
      (l.map fun c => c.inProgress.length).sum + b.inProgress.length := by
  induction l generalizing k with
  | nil => cases ha
  | cons c l ih =>
    cases k with
    | zero =>
      cases ha
      simp only [List.set_cons_zero, List.map_cons, List.sum_cons]
      omega
    | succ k =>
      have htail := ih ha
      simp only [List.set_cons_succ, List.map_cons, List.sum_cons]
      omega

/-- In a built state with no moves that is not at rest, the agents' own step takes one operation off
what is outstanding. -/
theorem exists_step_of_not_atRest {s : State} (hinv : s.Inv) (hs : s.agenda = [])
    (hv : s.tableValid = true) (hrest : ¬ s.AtRest) :
    ∃ t, step s = .next t ∧ t.agenda = [] ∧ t.tableValid = true ∧
      t.outstanding + 1 = s.outstanding := by
  rw [step_of_agenda_nil hs]
  by_cases hp : s.pendingBuilds = 0
  · cases hbusy : firstBusy 0 s.accs with
    | none => exact absurd ⟨hp, firstBusy_eq_none.mp hbusy⟩ hrest
    | some k =>
      obtain ⟨i, a, hk, ha, hne⟩ := firstBusy_some hbusy
      obtain rfl : k = i := hk.trans (Nat.zero_add i)
      obtain ⟨op, q, hq⟩ := List.exists_cons_of_ne_nil hne
      have hop := hinv.acc_of_mem ha (hq ▸ List.mem_cons_self)
      have hnext : nextAgent s = some (.acc k) := by rw [nextAgent_of_built hv hp, hbusy]; rfl
      refine ⟨_, (settle_of_nextAgent hnext).trans (serve_acc_built hop ha hq hv), hs, hv, ?_⟩
      have hsum := sum_inProgress_set
        ((a.setInProgress q).complete (newCrc op s.table a.crc) (resultOf op a.crc)) ha
      simp only [Acc.complete_inProgress, Acc.setInProgress_inProgress, hq,
        List.length_cons] at hsum
      simp only [State.outstanding, State.setAcc_accs, State.setAcc_pendingBuilds]
      omega
  · refine ⟨_, (settle_of_nextAgent (nextAgent_of_build_due (.inr hp))).trans
      (serve_tableBuilder_valid hv), hs, hv, ?_⟩
    simp only [State.outstanding, State.setPendingBuilds_accs, State.setPendingBuilds_pendingBuilds]
    omega

/-- From a built state with no moves the run reaches rest in as many steps as operations are
outstanding. -/
theorem run_to_rest {s : State} (hinv : s.Inv) (hs : s.agenda = []) (hv : s.tableValid = true) :
    ∃ n t, n ≤ s.outstanding ∧ Host.Core.run Sys2Proof.core n s = .next t ∧ t.AtRest ∧
      t.tableValid = true := by
  induction hm : s.outstanding using Nat.strong_induction_on generalizing s with
  | _ m ih =>
    by_cases hrest : s.AtRest
    · exact ⟨0, s, Nat.zero_le m, run_zero s, hrest, hv⟩
    · obtain ⟨u, hu, hsu, hvu, hcount⟩ := exists_step_of_not_atRest hinv hs hv hrest
      obtain ⟨n, t, hn, hrun, hend⟩ :=
        ih u.outstanding (by omega) (stepKeepsInvariant s u hinv hu) hsu hvu rfl
      exact ⟨n + 1, t, by omega, (run_succ hu).trans hrun, hend⟩

/-- Settles O57: an unbuilt block builds first, in one step that adds nothing, and from a built one
every step takes one operation off what is outstanding. -/
theorem everythingOutstandingCompletes : Obligations.EverythingOutstandingCompletes := by
  intro s hinv hs
  cases hv : s.tableValid with
  | true =>
    obtain ⟨n, t, hn, hend⟩ := run_to_rest hinv hs hv
    exact ⟨n, t, Nat.le_succ_of_le hn, hend⟩
  | false =>
    have hbuild : step s = .next _ := (step_of_agenda_nil hs).trans
      ((settle_of_nextAgent (nextAgent_of_build_due (.inl hv))).trans
        (serve_tableBuilder_unbuilt hv))
    obtain ⟨n, t, hn, hrun, hend⟩ := run_to_rest (stepKeepsInvariant s _ hinv hbuild) hs rfl
    refine ⟨n + 1, t, Nat.succ_le_succ (hn.trans ?_), (run_succ hbuild).trans hrun, hend⟩
    exact Nat.add_le_add_right (Nat.sub_le _ _) _

end Sys2Proof.Machine
end
